-- ==== Sys2Proof/Word.lean ====
section
/-! DEFINITION. The word and byte types (00_scope.md R11, R6: WORD_BITS = 16, IO_BITS = 8). -/

namespace Sys2Proof

/-- A word: an unsigned integer of 16 bits (R11). A register, a memory cell, a stack element,
the program counter and an instruction word are words. -/
abbrev Word := BitVec 16

/-- A byte: half of an image word (R58), or one character of the two ports (R33). -/
abbrev Byte := BitVec 8

end Sys2Proof
end

