-- ==== Sys2Proof/Syntax.lean ====
section
/-! DEFINITION. The 22 instructions (30_encoding.md R74) and their operands (R72, R73). -/

namespace Sys2Proof

/-- A legal operand word (R72): a literal 0..32767 (15 bits), or a reference to one of the 8
registers. An illegal operand word (32776..65535) is no operand: the decoder rejects it (R78; log 27). -/
inductive Operand where
  | lit (n : BitVec 15)
  | reg (r : Fin 8)
  deriving DecidableEq, Repr

/-- One constructor per row of the opcode table (R74), in its order. The operands `a`, `b`, `c` are
those of the rules (R13, R100): the handler, not the decoder, uses each as a target or a value. -/
inductive Instr where
  | halt
  | set (a b : Operand)
  | push (a : Operand)
  | pop (a : Operand)
  | eq (a b c : Operand)
  | gt (a b c : Operand)
  | jmp (a : Operand)
  | jt (a b : Operand)
  | jf (a b : Operand)
  | add (a b c : Operand)
  | mult (a b c : Operand)
  | mod (a b c : Operand)
  | and (a b c : Operand)
  | or (a b c : Operand)
  | not (a b : Operand)
  | rmem (a b : Operand)
  | wmem (a b : Operand)
  | call (a : Operand)
  | ret
  | out (a : Operand)
  | in_ (a : Operand)
  | nop
  deriving DecidableEq, Repr

end Sys2Proof
end

