-- ==== Sys2Proof/WellFormed.lean ====
section
/-! DEFINITION. Which word sequences are an instruction (30_encoding.md R70 to R79). The checks are on
the raw words: a term of `Instr` cannot hold an illegal operand word or a wrong operand count. -/

namespace Sys2Proof

/-- R71, R77: the opcode words 0..21 are the legal ones. -/
def legalOpcode (w : Word) : Bool := w.toNat < 22

/-- R72, R78: the operand words 0..32775 are the legal ones. -/
def legalOperand (w : Word) : Bool := w.toNat < 32776

/-- R74, R75: the number of operand words of each opcode number 0..21 (no other number is legal). -/
def arityOf : Nat → Nat
  | 0 | 18 | 21 => 0
  | 2 | 3 | 6 | 17 | 19 | 20 => 1
  | 1 | 7 | 8 | 14 | 15 | 16 => 2
  | 4 | 5 | 9 | 10 | 11 | 12 | 13 => 3
  | _ => 0

/-- R70: a well-formed instruction is a legal opcode word followed by exactly its arity of legal
operand words. -/
def wellFormedWords : List Word → Bool
  | [] => false
  | op :: ws => legalOpcode op && ws.length == arityOf op.toNat && ws.all legalOperand

end Sys2Proof
end

