-- ==== Sys2Proof/Decode.lean ====
section
/-! DEFINITION. The decoder and the encoder (30_encoding.md), and the image's byte order (20_memory.md
R58). The decoder reads words in order and rejects by the name of the first defect it meets. -/

namespace Sys2Proof

/-- R58, decision D2: byte `2i` of the image is the low half of word `i`, byte `2i+1` the high half. -/
def wordOfBytes (lo hi : Byte) : Word := hi ++ lo

/-- Bits 7..0 of a word: its byte at the even image offset (R58); also the byte OUT presents (R170). -/
def lowByte (w : Word) : Byte := w.extractLsb' 0 8

/-- Bits 15..8 of a word: its byte at the odd image offset (R58). -/
def highByte (w : Word) : Byte := w.extractLsb' 8 8

/-- Why words are no instruction: the three decode faults of 60_exceptions.md R180. -/
inductive DecodeError where
  /-- R77: the opcode word is 22 or more. -/
  | unknownOpcode
  /-- R78: an operand word is 32776 or more. -/
  | operandOverflow
  /-- R79: an operand word is missing. -/
  | operandCountMismatch
  deriving DecidableEq, Repr

/-- The class of an operand word (R72), and its literal or register number; none when illegal. -/
def Operand.ofWord (w : Word) : Option Operand :=
  if w.toNat < 32768 then some (.lit (BitVec.ofNat 15 w.toNat))
  else if w.toNat < 32776 then some (.reg (Fin.ofNat 8 (w.toNat - 32768)))
  else none

/-- Reading one operand word (R98 (2)): it must be there, and then it must be legal. -/
def takeOperand : List Word → Except DecodeError (Operand × List Word)
  | [] => .error .operandCountMismatch
  | w :: ws =>
    match Operand.ofWord w with
    | none => .error .operandOverflow
    | some o => .ok (o, ws)

/-- Format F1 (R70): one operand word. -/
def decodeF1 (k : Operand → Instr) (ws : List Word) : Except DecodeError (Instr × List Word) :=
  match takeOperand ws with
  | .error e => .error e
  | .ok (a, ws) => .ok (k a, ws)

/-- Format F2 (R70): two operand words, checked in order. -/
def decodeF2 (k : Operand → Operand → Instr) (ws : List Word) : Except DecodeError (Instr × List Word) :=
  match takeOperand ws with
  | .error e => .error e
  | .ok (a, ws) => decodeF1 (k a) ws

/-- Format F3 (R70): three operand words, checked in order. -/
def decodeF3 (k : Operand → Operand → Operand → Instr) (ws : List Word) :
    Except DecodeError (Instr × List Word) :=
  match takeOperand ws with
  | .error e => .error e
  | .ok (a, ws) => decodeF2 (k a) ws

/-- The decoder: the opcode word `op` and the words that follow it give an instruction and the words
left over, or the first defect in reading order (R74, R98). The opcode numbers are decision D1. -/
def decode (op : Word) (ws : List Word) : Except DecodeError (Instr × List Word) :=
  match op.toNat with
  | 0 => .ok (.halt, ws)
  | 1 => decodeF2 .set ws
  | 2 => decodeF1 .push ws
  | 3 => decodeF1 .pop ws
  | 4 => decodeF3 .eq ws
  | 5 => decodeF3 .gt ws
  | 6 => decodeF1 .jmp ws
  | 7 => decodeF2 .jt ws
  | 8 => decodeF2 .jf ws
  | 9 => decodeF3 .add ws
  | 10 => decodeF3 .mult ws
  | 11 => decodeF3 .mod ws
  | 12 => decodeF3 .and ws
  | 13 => decodeF3 .or ws
  | 14 => decodeF2 .not ws
  | 15 => decodeF2 .rmem ws
  | 16 => decodeF2 .wmem ws
  | 17 => decodeF1 .call ws
  | 18 => .ok (.ret, ws)
  | 19 => decodeF1 .out ws
  | 20 => decodeF1 .in_ ws
  | 21 => .ok (.nop, ws)
  | _ => .error .unknownOpcode

/-- The operand word of an operand (R72): the literal itself, or 32768 plus the register number. -/
def Operand.toWord : Operand → Word
  | .lit n => BitVec.ofNat 16 n.toNat
  | .reg r => BitVec.ofNat 16 (32768 + r.val)

/-- The opcode number of an instruction (R74, decision D1). -/
def Instr.opcode : Instr → Nat
  | .halt => 0
  | .set _ _ => 1
  | .push _ => 2
  | .pop _ => 3
  | .eq _ _ _ => 4
  | .gt _ _ _ => 5
  | .jmp _ => 6
  | .jt _ _ => 7
  | .jf _ _ => 8
  | .add _ _ _ => 9
  | .mult _ _ _ => 10
  | .mod _ _ _ => 11
  | .and _ _ _ => 12
  | .or _ _ _ => 13
  | .not _ _ => 14
  | .rmem _ _ => 15
  | .wmem _ _ => 16
  | .call _ => 17
  | .ret => 18
  | .out _ => 19
  | .in_ _ => 20
  | .nop => 21

/-- The operands of an instruction, in the order of its operand words (R13). -/
def Instr.operands : Instr → List Operand
  | .halt | .ret | .nop => []
  | .push a | .pop a | .jmp a | .call a | .out a | .in_ a => [a]
  | .set a b | .jt a b | .jf a b | .not a b | .rmem a b | .wmem a b => [a, b]
  | .eq a b c | .gt a b c | .add a b c | .mult a b c | .mod a b c | .and a b c | .or a b c => [a, b, c]

/-- The opcode word (R71). -/
def Instr.opcodeWord (i : Instr) : Word := BitVec.ofNat 16 i.opcode

/-- The operand words (R70). -/
def Instr.operandWords (i : Instr) : List Word := i.operands.map Operand.toWord

/-- The encoder (R70): the opcode word, then the operand words. -/
def encode (i : Instr) : List Word := i.opcodeWord :: i.operandWords

/-- An instruction is well-formed when its words are (R70); `Laws/PerInstr.lean` proves it of each
constructor. -/
def Instr.wellFormed (i : Instr) : Bool := wellFormedWords (encode i)

/-- The four instruction words (R70: the longest instruction has four) of the table's number `w`:
word 0 is its least significant 16 bits; every bit from `nbits` up is 0. -/
def tableWords (nbits w : Nat) : List Word :=
  (List.range 4).map fun k => BitVec.ofNat 16 (w % 2 ^ nbits / 65536 ^ k)

/-- What the decoder reads from the first instruction of the table's number (see `tableWords`). -/
def decodeTableWord (nbits w : Nat) : Option Instr :=
  match tableWords nbits w with
  | [] => none
  | op :: ws =>
    match decode op ws with
    | .ok (i, _) => some i
    | .error _ => none

end Sys2Proof
end

