-- ==== Sys2Proof/Config.lean ====
section
/-! DEFINITION. What one implementation fixes. The values of 00_scope.md R6 are fixed for every
instance ("None is configurable") and stand as numerals where they are used: 16-bit words,
MODULUS 32768, LIT_MAX 32767, REG_BASE 32768, NREGS 8, OPERAND_LIMIT 32776, MEM_WORDS 32768,
MAX_LOAD_BYTES 65536, NOPCODES 22, MAX_ARITY 3. The one open parameter is STACK_CAPACITY (R7, R9). -/

namespace Sys2Proof

/-- The configuration of an instance (R9): the parameter `STACK_CAPACITY` of R7, R29 and decision D7,
a natural number or unbounded (`none`). DESIGN CHOICE (log 3): it is carried in the state, where no
step changes it, so that a statement about every state is a statement about every capacity. -/
structure Config where
  stackCapacity : Option Nat
  deriving DecidableEq, Repr

end Sys2Proof
end

