-- ==== Sys2Proof/Machine/State.lean ====
section
/-! DEFINITION. The architectural state (10_state.md R20) as plain data, its reset value (R37), and the
reasons a step can stop. -/

namespace Sys2Proof.Machine

/-- The seven fatal faults of 60_exceptions.md R180, the values of `FAULT` (R32). The spec describes
what a fault does to the state (R185, R187), so a fault is a NEXT state (log 28), entered by `State.raise`;
`step` never answers `Host.Outcome.fault`. -/
inductive Fault where
  /-- R181: an opcode word of 22 or more. Raised by the cycle. Safe: the spec's own end of the run. -/
  | unknownOpcode
  /-- R182: an operand word of 32776 or more. Raised by the cycle. Safe. -/
  | operandOverflow
  /-- R182: an operand word at or beyond PSIZE. Raised by the cycle. Safe. -/
  | operandCountMismatch
  /-- R183: `pop` of an empty stack. Raised by POP and RET. Safe. -/
  | stackUnderflow
  /-- R183: an address of 32768 or more. Raised by RMEM and WMEM. Safe. -/
  | memoryOutOfBounds
  /-- R183: MOD by zero. Raised by MOD. Safe. -/
  | divisionByZero
  /-- R184: `push` at STACK_CAPACITY. Raised by PUSH and CALL. Safe. -/
  | allocationFailure
  deriving DecidableEq, Repr

/-- Why an operation has no meaning. No instruction ends in one: all but `notModelled` are answers to
host operations the spec gives no meaning to (70_reset_and_hazards.md R213, R215, R218). -/
inductive Refusal where
  /-- An instruction with no meaning yet. Raised by no arm of `exec`: all 22 have their meaning. Safe. -/
  | notModelled (mnemonic : String)
  /-- R215, R216: the engine or the host acts on a released instance. Raised by `step` and by every
  host operation. Safe. -/
  | afterFree
  /-- R213, decision D3: the image has an odd number of bytes. Raised by `load`. Safe. -/
  | oddLength
  /-- R218: load is the host's move only when RUN = IDLE. Raised by `hostLoad` in RUNNING, HALTED, EXHAUSTED
  and FAULTED, and by `load` there of an unloaded instance (no run reaches it). Safe. -/
  | loadOutOfOrder
  /-- R215: execute before load. Raised by `execute`. Safe. -/
  | executeBeforeLoad
  /-- R215: a second execute. Raised by `execute`. Safe. -/
  | executeTwice
  /-- R218: free before the run has ended. Raised by `free`. Safe. -/
  | freeBeforeEnd
  deriving DecidableEq, Repr

/-- The run state `RUN` (R31). -/
inductive RunState where
  | idle | running | halted | exhausted | faulted | released
  deriving DecidableEq, Repr

/-- The two load errors (60_exceptions.md R180, R191). -/
inductive LoadError where
  | alreadyLoaded | sizeExceeded
  deriving DecidableEq, Repr

/-- The origin of a traceback record: the operation's name, and load is the only one (R34, D22). -/
inductive Origin where
  | load
  deriving DecidableEq, Repr

/-- A traceback record (R34): the pair (origin, reason) of the last non-fatal anomaly. -/
structure Traceback where
  origin : Origin
  reason : LoadError
  deriving DecidableEq, Repr

/-- What `load` returns to the host (R211, R212). -/
inductive LoadResult where
  | success
  | error (e : LoadError)
  deriving DecidableEq, Repr

/-- What `execute` returns to the host when the run has ended (R104, R214). -/
inductive RunResult where
  | success
  | fault (reason : Fault)
  deriving DecidableEq, Repr

/-- Memory as a canonical list of byte cells: word `a` of MEM stands as its image bytes (R58), the low
byte at key `2a` and the high byte at key `2a + 1`. DESIGN CHOICE (log 1): no operation reads or writes
half a word. The form is `Memory.wf` (Ops.lean). -/
abbrev Memory := List Host.Cell

/-- One instance of the hardware: the eleven items of R20, and its configuration (R9). -/
@[ext]
structure State where
  /-- `x[0..7]` (R21). -/
  regs : Vector Word 8
  /-- `pc` (R24). -/
  pc : Word
  /-- `MEM[0..32767]` (R27). -/
  mem : Memory
  /-- `STACK`, bottom first, top last (R28). -/
  stack : List Word
  /-- `PSIZE`, an integer 0..32768 (R26). -/
  psize : Fin 32769
  /-- `LOADED` (R30). -/
  loaded : Bool
  /-- `RUN` (R31). -/
  run : RunState
  /-- `FAULT` (R32). -/
  fault : Option Fault
  /-- `TRACE` (R34). -/
  trace : Option Traceback
  /-- `OUT`, the values presented, oldest first, all 16 bits of each (R33, R170, D6). -/
  out : List Word
  /-- `INP`, the bytes supplied and not yet consumed, oldest first (R33). -/
  inp : List Byte
  /-- The model's own field: the parameters of the instance (R9; log 3). No step changes it. -/
  config : Config
  deriving DecidableEq, Repr

/-- Reset (R37, R210) of an instance with configuration `c`. INP is empty until the host supplies a
byte (log 4); memory reads 0 everywhere (D20, log 2). -/
def State.resetWith (c : Config) : State where
  regs := Vector.replicate 8 0
  pc := 0
  mem := []
  stack := []
  psize := 0
  loaded := false
  run := .idle
  fault := none
  trace := none
  out := []
  inp := []
  config := c

/-- The machine right after reset, with an unbounded stack (DESIGN CHOICE, log 3). -/
def State.reset : State := State.resetWith ⟨none⟩

end Sys2Proof.Machine
end

