-- ==== Sys2Proof/Machine/Ops.lean ====
section
/-! DEFINITION. The named operations over memory, registers, the stack and the two ports, and taking a
fault. -/

namespace Sys2Proof.Machine

/-! ### Memory (20_memory.md) -/

/-- What a byte that no cell lists reads as: 0 ("the remainder is implicitly zero", R27; before load
decision D20, log 2). -/
def Memory.unlisted : Byte := 0

/-- The canonical form: keys strictly rising, inside the 65536 bytes of the 32768 words, and no cell
equal to what an unlisted one reads as. -/
abbrev Memory.wf (m : Memory) : Prop :=
  m.Pairwise (fun c d => c.1 < d.1) ∧ ∀ c ∈ m, c.1 < 65536 ∧ c.2 ≠ Memory.unlisted

/-- The model's read of one byte. -/
def Memory.readByte : Memory → Nat → Byte
  | [], _ => Memory.unlisted
  | (j, b) :: m, k => if j = k then b else Memory.readByte m k

/-- A cell in front of a memory, unless it holds what an unlisted cell reads as. -/
def Memory.consCell (k : Nat) (b : Byte) (m : Memory) : Memory :=
  if b = Memory.unlisted then m else (k, b) :: m

/-- A cell put in front of the first cell of a larger key. -/
def Memory.insertCell : Memory → Nat → Byte → Memory
  | [], k, b => Memory.consCell k b []
  | (j, c) :: m, k, b =>
    if j < k then (j, c) :: Memory.insertCell m k b else Memory.consCell k b ((j, c) :: m)

/-- The model's write of one byte: the cell of key `k` is taken out and the new one put in its place,
which keeps the canonical form. -/
def Memory.writeByte (m : Memory) (k : Nat) (b : Byte) : Memory :=
  Memory.insertCell (m.filter fun c => c.1 ≠ k) k b

/-- `MEM[a]`: one whole word (R55, R58). -/
def Memory.readWord (m : Memory) (a : Nat) : Word :=
  wordOfBytes (m.readByte (2 * a)) (m.readByte (2 * a + 1))

/-- `MEM[a] <- v`: one whole word, all 16 bits (R53, R55). -/
def Memory.writeWord (m : Memory) (a : Nat) (v : Word) : Memory :=
  (m.writeByte (2 * a) (lowByte v)).writeByte (2 * a + 1) (highByte v)

/-- Image bytes laid at keys `k`, `k + 1`, … (R58, R212). -/
def Memory.ofBytes : Nat → List Byte → Memory
  | _, [] => []
  | k, b :: bs => Memory.consCell k b (Memory.ofBytes (k + 1) bs)

/-- `MEM[a]` of a state. -/
def State.readCell (s : State) (a : Nat) : Word := s.mem.readWord a

/-- `MEM[a] <- v`, for `a` below 32768. -/
def State.writeCell (s : State) (a : Nat) (v : Word) : State := { s with mem := s.mem.writeWord a v }

/-- `MemRead(addr, 1)` (R52). The bound is 32768, not PSIZE (R54). -/
def State.memRead (s : State) (addr : Word) : Except Fault Word :=
  if addr.toNat < 32768 then .ok (s.readCell addr.toNat) else .error .memoryOutOfBounds

/-- `MemWrite(addr, 1, v)` (R53). -/
def State.memWrite (s : State) (addr v : Word) : Except Fault State :=
  if addr.toNat < 32768 then .ok (s.writeCell addr.toNat v) else .error .memoryOutOfBounds

/-! ### Registers and pc (10_state.md) -/

/-- Read of `x[r]` (R21). -/
def State.readReg (s : State) (r : Fin 8) : Word := s.regs[r]

/-- `x[r] <- v` (R21); no register is hardwired. -/
def State.writeReg (s : State) (r : Fin 8) (v : Word) : State := { s with regs := s.regs.set r v }

/-- `pc <- t` (R24): all 16 bits, unchanged (R145). -/
def State.setPc (s : State) (t : Word) : State := { s with pc := t }

/-- The address of the next instruction in memory order, `ipc + 1 + arity` (R99). -/
def State.nextPc (s : State) (arity : Nat) : Word := s.pc + 1 + BitVec.ofNat 16 arity

/-- The end of a handler that does not transfer control: `pc = ipc + 1 + arity` (R99). -/
def State.advance (s : State) (arity : Nat) : State := s.setPc (s.nextPc arity)

/-! ### The stack (40_cycle_and_operands.md) -/

/-- `STACK` replaced. -/
def State.setStack (s : State) (st : List Word) : State := { s with stack := st }

/-- Whether `depth = STACK_CAPACITY` or more leaves no room (R93); never so when unbounded. -/
def State.stackFull (s : State) : Bool :=
  match s.config.stackCapacity with
  | none => false
  | some n => n ≤ s.stack.length

/-- `push(v)` (R93): appended as the new top, or `AllocationFailure`. -/
def State.push (s : State) (v : Word) : Except Fault State :=
  if s.stackFull then .error .allocationFailure else .ok (s.setStack (s.stack ++ [v]))

/-- `pop()` (R94): the top and the state without it, or `StackUnderflow`. -/
def State.pop (s : State) : Except Fault (Word × State) :=
  match s.stack.getLast? with
  | none => .error .stackUnderflow
  | some v => .ok (v, s.setStack s.stack.dropLast)

/-! ### The ports (47_io.md) -/

/-- `OutValue(v)` (R170): the whole word is recorded. -/
def State.outValue (s : State) (v : Word) : State := { s with out := s.out ++ [v] }

/-- `INP` replaced. -/
def State.setInp (s : State) (bs : List Byte) : State := { s with inp := bs }

/-! ### The run state and faults (60_exceptions.md) -/

/-- `RUN <- r` (R31). -/
def State.setRun (s : State) (r : RunState) : State := { s with run := r }

/-- Taking a fault, `raise Fault(reason)` (R185, R187): RUN and FAULT are written and nothing else.
`pc` stays the address of the faulting instruction (decision D9, log 14), since the state a handler
starts from has `pc = ipc`. There is no vector, no saved pc and no return from a fault (R185, R188). -/
def State.raise (s : State) (reason : Fault) : State := { s with run := .faulted, fault := some reason }

/-- A handler's or the cycle's answer when a fault is raised: the faulted state. -/
def takeFault (reason : Fault) (s : State) : Host.Outcome State Fault Refusal := .next (s.raise reason)

end Sys2Proof.Machine
end

