-- ==== Sys2Proof/Machine/Operands.lean ====
section
/-! DEFINITION. Every operand form (40_cycle_and_operands.md R90 to R92): a value operand is resolved to
a word, a target operand to a location. -/

namespace Sys2Proof.Machine

/-- `value(w)` (R90): a literal is itself, zero-extended to 16 bits (R73); a register reference is the
register's whole content. -/
def State.value (s : State) : Operand → Word
  | .lit n => BitVec.ofNat 16 n.toNat
  | .reg r => s.readReg r

/-- A writable location (R91): a register or a memory cell. -/
inductive Location where
  | reg (r : Fin 8)
  | cell (a : Nat)
  deriving DecidableEq, Repr

/-- resolve-target (R91): the register itself, or the cell whose address is the literal (R92). -/
def resolveTarget : Operand → Location
  | .reg r => .reg r
  | .lit n => .cell n.toNat

/-- The content of a location. -/
def State.readLoc (s : State) : Location → Word
  | .reg r => s.readReg r
  | .cell a => s.readCell a

/-- A write to a location. -/
def State.writeLoc (s : State) : Location → Word → State
  | .reg r, v => s.writeReg r v
  | .cell a, v => s.writeCell a v

/-- `TargetWrite(w, v)` (R91). A literal target is below 32768, so it never faults. -/
def State.targetWrite (s : State) (a : Operand) (v : Word) : State := s.writeLoc (resolveTarget a) v

/-- The end of a handler that writes `v` to its target and falls through (R99, R102): `v` is computed
by the caller from the state the handler started with. -/
def writeResult (a : Operand) (v : Word) (arity : Nat) (s : State) : Host.Outcome State Fault Refusal :=
  .next ((s.targetWrite a v).advance arity)

end Sys2Proof.Machine
end

