-- ==== Sys2Proof/Machine/Flags.lean ====
section
/-! DEFINITION. The hardware has no flags and no condition codes (10_state.md R35). In their place: the word a
compare writes, the test a conditional jump makes, and the reduction of an ALU result. -/

namespace Sys2Proof.Machine

/-- The result of a compare (R35, R135, R136): exactly 1 or 0. -/
def truthWord (b : Bool) : Word := if b then 1 else 0

/-- The test of JT and JF (R35, R141, R142): all 16 bits against zero. -/
def isZero (w : Word) : Bool := w = 0

/-- The reduction of 45_alu.md R150: an exact integer result, stored modulo 32768. -/
def reduced (n : Nat) : Word := BitVec.ofNat 16 (n % 32768)

end Sys2Proof.Machine
end

