-- ==== Sys2Proof/Machine/Alu.lean ====
section
/-! DEFINITION. ADD, MULT, MOD, AND, OR and NOT (45_alu.md). Each computes an exact integer from its 16-bit
inputs and stores it modulo 32768 (R150, conflict C2, log 26). -/

namespace Sys2Proof.Machine

/-- ADD a, b, c (R151). -/
def execAdd (a b c : Operand) (s : State) : Host.Outcome State Fault Refusal :=
  writeResult a (reduced ((s.value b).toNat + (s.value c).toNat)) 3 s

/-- MULT a, b, c (R152). -/
def execMult (a b c : Operand) (s : State) : Host.Outcome State Fault Refusal :=
  writeResult a (reduced ((s.value b).toNat * (s.value c).toNat)) 3 s

/-- MOD a, b, c (R153): a zero divisor is the fault `DivisionByZero`. -/
def execMod (a b c : Operand) (s : State) : Host.Outcome State Fault Refusal :=
  if isZero (s.value c) then takeFault .divisionByZero s
  else writeResult a (reduced ((s.value b).toNat % (s.value c).toNat)) 3 s

/-- AND a, b, c (R154). -/
def execAnd (a b c : Operand) (s : State) : Host.Outcome State Fault Refusal :=
  writeResult a (reduced (s.value b &&& s.value c).toNat) 3 s

/-- OR a, b, c (R155). -/
def execOr (a b c : Operand) (s : State) : Host.Outcome State Fault Refusal :=
  writeResult a (reduced (s.value b ||| s.value c).toNat) 3 s

/-- NOT a, b (R156): the complement, masked to 15 bits. -/
def execNot (a b : Operand) (s : State) : Host.Outcome State Fault Refusal :=
  writeResult a (~~~ s.value b &&& 0x7FFF) 2 s

end Sys2Proof.Machine
end

