-- ==== Sys2Proof/Machine/Compare.lean ====
section
/-! DEFINITION. EQ and GT (43_compare.md): all 16 bits, unsigned, never reduced (R161). -/

namespace Sys2Proof.Machine

/-- EQ a, b, c (R135). -/
def execEq (a b c : Operand) (s : State) : Host.Outcome State Fault Refusal :=
  writeResult a (truthWord (s.value b = s.value c)) 3 s

/-- GT a, b, c (R136). -/
def execGt (a b c : Operand) (s : State) : Host.Outcome State Fault Refusal :=
  writeResult a (truthWord ((s.value c).toNat < (s.value b).toNat)) 3 s

end Sys2Proof.Machine
end

