-- ==== Sys2Proof/Machine/Control.lean ====
section
/-! DEFINITION. JMP, JT, JF, CALL and RET (44_control_transfer.md). A target is a 16-bit word address loaded
unchanged, and the transfer never faults on it (R145). -/

namespace Sys2Proof.Machine

/-- JMP a (R140). -/
def execJmp (a : Operand) (s : State) : Host.Outcome State Fault Refusal := .next (s.setPc (s.value a))

/-- JT a, b (R141). -/
def execJt (a b : Operand) (s : State) : Host.Outcome State Fault Refusal :=
  .next (if isZero (s.value a) then s.advance 2 else s.setPc (s.value b))

/-- JF a, b (R142). -/
def execJf (a b : Operand) (s : State) : Host.Outcome State Fault Refusal :=
  .next (if isZero (s.value a) then s.setPc (s.value b) else s.advance 2)

/-- CALL a (R143): the return address is `ipc + 2`; the target is read before the push. -/
def execCall (a : Operand) (s : State) : Host.Outcome State Fault Refusal :=
  match s.push (s.nextPc 1) with
  | .error r => takeFault r s
  | .ok t => .next (t.setPc (s.value a))

/-- RET (R144): an empty stack is a fault, not a halt (conflict C1, log 25). -/
def execRet (s : State) : Host.Outcome State Fault Refusal :=
  match s.pop with
  | .error r => takeFault r s
  | .ok (v, t) => .next (t.setPc v)

end Sys2Proof.Machine
end

