-- ==== Sys2Proof/Machine/Io.lean ====
section
/-! DEFINITION. OUT and IN (47_io.md), and what the output port presents (R170). -/

namespace Sys2Proof.Machine

/-- OUT a (R171). -/
def execOut (a : Operand) (s : State) : Host.Outcome State Fault Refusal :=
  .next ((s.outValue (s.value a)).advance 1)

/-- IN a (R172, R173): the first byte of INP, zero-extended, to the target. While INP is empty the engine
holds: the step changes nothing, and `pc` still is `ipc` (decision D5, log 5). -/
def execIn (a : Operand) (s : State) : Host.Outcome State Fault Refusal :=
  match s.inp with
  | [] => .next s
  | ch :: rest => writeResult a (BitVec.ofNat 16 ch.toNat) 1 (s.setInp rest)

/-- The bytes the output port has presented, oldest first: the low 8 bits of each value (R170, decision
D6, log 12). -/
def State.presented (s : State) : List Byte := s.out.map lowByte

end Sys2Proof.Machine
end

