-- ==== Sys2Proof/Machine/MemoryAccess.lean ====
section
/-! DEFINITION. RMEM and WMEM (46_memory_access.md). The address is a resolved value, a word index used
directly (decision D4, log 11). -/

namespace Sys2Proof.Machine

/-- RMEM a, b (R165). -/
def execRmem (a b : Operand) (s : State) : Host.Outcome State Fault Refusal :=
  match s.memRead (s.value b) with
  | .error r => takeFault r s
  | .ok v => writeResult a v 2 s

/-- WMEM a, b (R166): neither operand is a target. -/
def execWmem (a b : Operand) (s : State) : Host.Outcome State Fault Refusal :=
  match s.memWrite (s.value a) (s.value b) with
  | .error r => takeFault r s
  | .ok t => .next (t.advance 2)

end Sys2Proof.Machine
end

