-- ==== Sys2Proof/Machine/MoveStack.lean ====
section
/-! DEFINITION. SET, PUSH and POP (42_move_and_stack.md): words are moved unchanged. -/

namespace Sys2Proof.Machine

/-- SET a, b (R125). -/
def execSet (a b : Operand) (s : State) : Host.Outcome State Fault Refusal :=
  writeResult a (s.value b) 2 s

/-- PUSH a (R126). -/
def execPush (a : Operand) (s : State) : Host.Outcome State Fault Refusal :=
  match s.push (s.value a) with
  | .error r => takeFault r s
  | .ok t => .next (t.advance 1)

/-- POP a (R127): on an empty stack the target is not written. -/
def execPop (a : Operand) (s : State) : Host.Outcome State Fault Refusal :=
  match s.pop with
  | .error r => takeFault r s
  | .ok (v, t) => writeResult a v 1 t

end Sys2Proof.Machine
end

