-- ==== Sys2Proof/Machine/System.lean ====
section
/-! DEFINITION. HALT and NOP (41_system.md). -/

namespace Sys2Proof.Machine

/-- HALT (R120): `RUN <- HALTED`, `pc = ipc + 1`. The diagnostic dump is no architectural effect
(R193, decision D11, log 16). -/
def execHalt (s : State) : Host.Outcome State Fault Refusal := .next ((s.setRun .halted).advance 0)

/-- NOP (R121): only `pc` advances. -/
def execNop (s : State) : Host.Outcome State Fault Refusal := .next (s.advance 0)

end Sys2Proof.Machine
end

