-- ==== Sys2Proof/Machine/Fetch.lean ====
section
/-! DEFINITION. Instruction fetch (40_cycle_and_operands.md R98), and placing an instruction where it is
fetched. -/

namespace Sys2Proof.Machine

/-- The memory words at `a`, `a + 1`, … that lie below PSIZE, at most `n` of them (R79, R98). -/
def State.wordsFrom (s : State) (a : Nat) : Nat → List Word
  | 0 => []
  | n + 1 => if a < s.psize.val then s.readCell a :: s.wordsFrom (a + 1) n else []

/-- The fault of a decode error (60_exceptions.md R180 to R182). -/
def decodeFault : DecodeError → Fault
  | .unknownOpcode => .unknownOpcode
  | .operandOverflow => .operandOverflow
  | .operandCountMismatch => .operandCountMismatch

/-- The instruction at `pc`, or the fault its words raise, first one met in reading order (R98, R186).
The words of the instruction are read when its cycle begins (R62). -/
def State.fetch (s : State) : Except Fault Instr :=
  match decode (s.readCell s.pc.toNat) (s.wordsFrom (s.pc.toNat + 1) 3) with
  | .error e => .error (decodeFault e)
  | .ok (i, _) => .ok i

/-- The words `ws` stored from cell `a` on, as far as there are cells (R50). -/
def State.placeWords (s : State) (a : Nat) : List Word → State
  | [] => s
  | w :: ws => if a < 32768 then (s.writeCell a w).placeWords (a + 1) ws else s

/-- A state that is running with its program reaching at least to the end of the words `ws` placed at
`pc` (log 7): stands for loading an image that holds them and for execute (R212, R214). -/
def State.launchAtPc (s : State) (ws : List Word) : State :=
  let t := s.placeWords s.pc.toNat ws
  { t with
    psize := Fin.ofNat 32769 (min 32768 (max s.psize.val (s.pc.toNat + ws.length)))
    loaded := true
    run := .running }

end Sys2Proof.Machine
end

