-- ==== Sys2Proof/Machine/Cycle.lean ====
section
/-! DEFINITION. One instruction cycle (40_cycle_and_operands.md R96). -/

namespace Sys2Proof.Machine

/-- `Step()` of R96, for a running engine: the loop condition (R97), fetch with its checks (R98), and the
handler (R100). One cycle is one step (R103). -/
def cycle (s : State) : Host.Outcome State Fault Refusal :=
  if s.psize.val ≤ s.pc.toNat then .next (s.setRun .exhausted)
  else
    match s.fetch with
    | .error r => takeFault r s
    | .ok i => exec i s

end Sys2Proof.Machine
end

