-- ==== Sys2Proof/Machine/Step.lean ====
section
/-! DEFINITION. The engine's step, and the state in which a given instruction is the next to run. -/

namespace Sys2Proof.Machine

/-- One step of the engine (R96: only when RUN = RUNNING). In IDLE, HALTED, EXHAUSTED and FAULTED no
rule moves the engine (R31, R188, R217), so nothing changes (log 6); a released instance has no
meaning (R216). -/
def step (s : State) : Host.Outcome State Fault Refusal :=
  match s.run with
  | .running => cycle s
  | .idle | .halted | .exhausted | .faulted => .next s
  | .released => .refused .afterFree

/-- `s` with the instruction of the table's number `w` stored at `pc`, loaded and running (log 7). -/
def State.withFetchWord (s : State) (nbits w : Nat) : State := s.launchAtPc (tableWords nbits w)

end Sys2Proof.Machine
end

