-- ==== Sys2Proof/Machine/Lifecycle.lean ====
section
/-! DEFINITION. The host's operations (70_reset_and_hazards.md R210 to R218): load, execute, supply input, free,
and what the host reads back. -/

namespace Sys2Proof.Machine

/-- A rejected load (R211, R191): nothing changes but TRACE, which becomes (load, error) (R34). -/
def State.rejectLoad (s : State) (e : LoadError) : State := { s with trace := some ⟨.load, e⟩ }

/-- A successful load (R212): PSIZE, MEM and LOADED. -/
def State.loadImage (s : State) (bytes : List Byte) : State :=
  { s with
    psize := Fin.ofNat 32769 (bytes.length / 2)
    mem := Memory.ofBytes 0 bytes
    loaded := true }

/-- `load(bytes, length)` with `length` the length of `bytes` (R211 to R213). AlreadyLoaded is tested
first (decision D14), in every run state before free (log 19). An odd length has no meaning (R213, decision D3), above 65536 too (log 10). -/
def load (bytes : List Byte) (s : State) : Host.Outcome (LoadResult × State) Fault Refusal :=
  if s.run = .released then .refused .afterFree
  else if s.loaded then .next (.error .alreadyLoaded, s.rejectLoad .alreadyLoaded)
  else if s.run ≠ .idle then .refused .loadOutOfOrder
  else if bytes.length % 2 = 1 then .refused .oddLength
  else if 65536 < bytes.length then .next (.error .sizeExceeded, s.rejectLoad .sizeExceeded)
  else .next (.success, s.loadImage bytes)

/-- `execute()` (R214): from IDLE with LOADED the run starts. Out of order it has no meaning (R215). -/
def execute (s : State) : Host.Outcome State Fault Refusal :=
  match s.run with
  | .idle => if s.loaded then .next (s.setRun .running) else .refused .executeBeforeLoad
  | .running | .halted | .exhausted | .faulted => .refused .executeTwice
  | .released => .refused .afterFree

/-- The host supplies one input byte (R33, R218): appended to INP, at any time before free. -/
def supplyInput (b : Byte) (s : State) : Host.Outcome State Fault Refusal :=
  if s.run = .released then .refused .afterFree else .next (s.setInp (s.inp ++ [b]))

/-- `free()` (R216): once, after the run has ended (R218). -/
def free (s : State) : Host.Outcome State Fault Refusal :=
  match s.run with
  | .halted | .exhausted | .faulted => .next (s.setRun .released)
  | .idle | .running => .refused .freeBeforeEnd
  | .released => .refused .afterFree

/-- What execute returns (R104, R214): success for HALTED and EXHAUSTED, the reason for FAULTED, and
nothing while the run has not ended. -/
def State.result (s : State) : Option RunResult :=
  match s.run with
  | .halted | .exhausted => some .success
  | .faulted => s.fault.map .fault
  | .idle | .running | .released => none

/-- The moves the host may make (R218); reset is the start of every history. -/
inductive HostMove where
  | load (bytes : List Byte)
  | execute
  | supply (b : Byte)
  | free
  deriving DecidableEq, Repr

/-- The outcome's state, without what load returns to the host. -/
def dropResult : Host.Outcome (LoadResult × State) Fault Refusal → Host.Outcome State Fault Refusal
  | .next (_, t) => .next t
  | .fault r => .fault r
  | .refused r => .refused r

/-- The host's load as a move: R218 allows it when RUN = IDLE, and the checks of R211 follow. Later it is no
move of the host and is refused (log 19). -/
def hostLoad (bytes : List Byte) (s : State) : Host.Outcome State Fault Refusal :=
  match s.run with
  | .idle => dropResult (load bytes s)
  | .running | .halted | .exhausted | .faulted => .refused .loadOutOfOrder
  | .released => .refused .afterFree

/-- One host move, at a time the table of R218 allows it. -/
def hostMove (m : HostMove) (s : State) : Host.Outcome State Fault Refusal :=
  match m with
  | .load bytes => hostLoad bytes s
  | .execute => execute s
  | .supply b => supplyInput b s
  | .free => free s

/-- One move of the whole system: a host move, or (none) a step of the engine. The host may move
between any two steps (R33, R218). -/
def act (m : Option HostMove) (s : State) : Host.Outcome State Fault Refusal :=
  match m with
  | none => step s
  | some h => hostMove h s

/-- The spec's numbering of the errors (60_exceptions.md R180, decision D10): convenience only. -/
def Fault.code : Fault → Nat
  | .unknownOpcode => 1
  | .operandOverflow => 2
  | .operandCountMismatch => 3
  | .stackUnderflow => 4
  | .memoryOutOfBounds => 5
  | .divisionByZero => 6
  | .allocationFailure => 7

/-- The codes of the load errors (R180). -/
def LoadError.code : LoadError → Nat
  | .alreadyLoaded => 8
  | .sizeExceeded => 9

end Sys2Proof.Machine
end

