-- ==== Sys2Proof/Safety.lean ====
section
/-! DEFINITION. What counts as a safe run, the machine's invariant, and the predicates the statements are made
of. Nothing here is used by a step. -/

namespace Sys2Proof.Machine

/-! ### Ends of a run -/

/-- A clean stop (00_scope.md R16, R104). -/
abbrev State.cleanStop (s : State) : Prop := s.run = .halted ∨ s.run = .exhausted

/-- A run is safe as long as it has not ended in a fault. -/
abbrev State.safe (s : State) : Prop := s.run ≠ .faulted

/-- `o` is the fault `r` taken in `s` (R185): RUN and FAULT are written and nothing else, where `pc` is
left unsaid (R187 takes it from decision D9). -/
def EndsInFault (r : Fault) (s : State) (o : Host.Outcome State Fault Refusal) : Prop :=
  ∃ t, o = .next t ∧ t = { s with run := .faulted, fault := some r, pc := t.pc }

/-- The one fault a handler can raise, by instruction (60_exceptions.md R199). -/
def handlerFault : Instr → Option Fault
  | .pop _ | .ret => some .stackUnderflow
  | .rmem _ _ | .wmem _ _ => some .memoryOutOfBounds
  | .mod _ _ _ => some .divisionByZero
  | .push _ | .call _ => some .allocationFailure
  | .halt | .set _ _ | .eq _ _ _ | .gt _ _ _ | .jmp _ | .jt _ _ | .jf _ _ | .add _ _ _ | .mult _ _ _
  | .and _ _ _ | .or _ _ _ | .not _ _ | .out _ | .in_ _ | .nop => none

/-- The first fault of the `n` operand words from address `a` on, if any (R98 (2)). -/
def State.operandFault (s : State) (a : Nat) : Nat → Option Fault
  | 0 => none
  | n + 1 =>
    if s.psize.val ≤ a then some .operandCountMismatch
    else if 32776 ≤ (s.readCell a).toNat then some .operandOverflow
    else s.operandFault (a + 1) n

/-- The operand word `k` of the instruction at `pc` is inside the image and legal (R98). -/
abbrev State.operandOk (s : State) (k : Nat) : Prop :=
  s.pc.toNat + 1 + k < s.psize.val ∧ (s.readCell (s.pc.toNat + 1 + k)).toNat < 32776

/-- An opcode word is about to be fetched: the engine runs and `pc` is below PSIZE (R97). -/
abbrev State.fetching (s : State) : Prop := s.run = .running ∧ s.pc.toNat < s.psize.val

/-- The opcode word at `pc`, as a number (R71). -/
abbrev State.opcodeAtPc (s : State) : Nat := (s.readCell s.pc.toNat).toNat

/-! ### What an instruction leaves unchanged -/

/-- Every register, every byte of memory outside the locations `written`, and PSIZE, LOADED, RUN, FAULT,
TRACE and the configuration are unchanged. -/
abbrev FrameBut (written : List Location) (s t : State) : Prop :=
  (∀ r, Location.reg r ∉ written → t.readReg r = s.readReg r) ∧
  (∀ k, Location.cell (k / 2) ∉ written → t.mem.readByte k = s.mem.readByte k) ∧
  t.psize = s.psize ∧ t.loaded = s.loaded ∧ t.run = s.run ∧ t.fault = s.fault ∧ t.trace = s.trace ∧
  t.config = s.config

/-- Nothing but `pc` and the locations `written` is changed. -/
abbrev SameBut (written : List Location) (s t : State) : Prop :=
  FrameBut written s t ∧ t.stack = s.stack ∧ t.out = s.out ∧ t.inp = s.inp

/-! ### The stack as a whole -/

/-- The pushes of a list, first element first. -/
def State.pushAll (s : State) : List Word → Except Fault State
  | [] => .ok s
  | v :: vs =>
    match s.push v with
    | .error r => .error r
    | .ok t => t.pushAll vs

/-- `n` pops: the words in the order they came. -/
def State.popMany (s : State) : Nat → Except Fault (List Word × State)
  | 0 => .ok ([], s)
  | n + 1 =>
    match s.pop with
    | .error r => .error r
    | .ok (v, t) =>
      match t.popMany n with
      | .error r => .error r
      | .ok (vs, u) => .ok (v :: vs, u)

/-! ### Comparing outcomes -/

/-- An outcome with a function applied to its next state. -/
def mapNext (f : State → State) : Host.Outcome State Fault Refusal → Host.Outcome State Fault Refusal
  | .next t => .next (f t)
  | .fault r => .fault r
  | .refused r => .refused r

/-- A state without what only the host reads: OUT and TRACE (R33, R34). -/
def State.forgetRecords (s : State) : State := { s with out := [], trace := none }

/-! ### The invariant -/

/-- The depth is within STACK_CAPACITY (R29, R93). -/
def State.depthFits (s : State) : Bool := s.config.stackCapacity.all fun n => s.stack.length ≤ n

/-- The machine's invariant: it holds at reset and every move of the engine or the host keeps it. -/
structure State.Inv (s : State) : Prop where
  /-- Memory is in its canonical form (log 1). -/
  memory : s.mem.wf
  /-- R29, R93: the stack never outgrows its capacity. -/
  depth : s.depthFits = true
  /-- R31, R214: only a loaded instance leaves IDLE. -/
  loaded : s.run ≠ .idle → s.loaded = true
  /-- R26, R27: before load there is no program and memory is zero. -/
  unloaded : s.loaded = false → s.psize = 0 ∧ s.mem = []
  /-- R38, R217: until execute, registers, pc, stack and OUT are as reset left them. -/
  launch : s.run = .idle → (∀ r, s.readReg r = 0) ∧ s.pc = 0 ∧ s.stack = [] ∧ s.out = []
  /-- R97, R105: an exhausted run stopped with pc at or above PSIZE. -/
  exhausted : s.run = .exhausted → s.psize.val ≤ s.pc.toNat
  /-- R32, R185: a faulted run has its reason, and only a faulted run (or one freed after) has one. -/
  faulted : s.run = .faulted → s.fault ≠ none
  onlyFaulted : s.fault ≠ none → s.run = .faulted ∨ s.run = .released

/-- The states a history of moves reaches from reset, for any configuration (R217, R218). -/
inductive Reachable : State → Prop where
  | reset (c : Config) : Reachable (State.resetWith c)
  | move (m : Option HostMove) {s t : State} : Reachable s → act m s = .next t → Reachable t

end Sys2Proof.Machine
end

