-- ==== Sys2Proof/Certificates/Slice0/Obligations.lean ====
section
/-! DEFINITION. The statements for the provers. Each docstring names the rules of spec/ it comes from. "Log n"
is notes/assumptions/n.md; a clause that rests on a decision of the spec (D<n>) or on a choice of the model
names it. The state of a statement about `exec` is the state before the instruction: `pc = ipc` (R13). -/

open Sys2Proof Sys2Proof.Machine

/-! ### Encoding (30_encoding.md) -/

/-- 30_encoding.md, lengths, formats and the opcode map: decoding the words of any instruction, whatever
follows them, gives it back and leaves what follows. The opcode numbers are the spec's decision D1. -/
def Obligations.DecodeOfEncodeIsTheInstruction : Prop :=
  ∀ (i : Instr) (rest : List Word), decode i.opcodeWord (i.operandWords ++ rest) = .ok (i, rest)

/-- 30_encoding.md, the other direction: words that decode are the encoding of what they decode to. -/
def Obligations.DecodeAcceptsOnlyEncodings : Prop :=
  ∀ (op : Word) (ws rest : List Word) (i : Instr), decode op ws = .ok (i, rest) → op :: ws = encode i ++ rest

/-- Words of the spec's own examples (files 41 to 47) decode to the instructions they stand for. The
opcode numbers are decision D1. -/
def Obligations.SampleWordsDecode : Prop :=
  decode 0 [] = .ok (.halt, []) ∧
  decode 1 [32768, 2] = .ok (.set (.reg 0) (.lit 2), []) ∧
  decode 4 [32771, 32770, 65] = .ok (.eq (.reg 3) (.reg 2) (.lit 65), []) ∧
  decode 7 [32768, 3] = .ok (.jt (.reg 0) (.lit 3), []) ∧
  decode 9 [32768, 32768, 1] = .ok (.add (.reg 0) (.reg 0) (.lit 1), []) ∧
  decode 16 [30000, 32768] = .ok (.wmem (.lit 30000) (.reg 0), []) ∧
  decode 20 [32768] = .ok (.in_ (.reg 0), [])

/-- 30_encoding.md, the three classes of an operand word, decided by its value alone. -/
def Obligations.OperandWordClasses : Prop :=
  ∀ w : Word,
    (w.toNat < 32768 → ∃ n, Operand.ofWord w = some (.lit n) ∧ n.toNat = w.toNat) ∧
    (∀ r : Fin 8, w.toNat = 32768 + r.val → Operand.ofWord w = some (.reg r)) ∧
    (32776 ≤ w.toNat → Operand.ofWord w = none)

/-! ### The cycle (40_cycle_and_operands.md) -/

/-- R77: every opcode word of 22 or more ends the run with `UnknownOpcode`, whatever the words after it;
no other opcode word does. -/
def Obligations.UnknownOpcodeEndsTheRun : Prop :=
  ∀ s : State, s.fetching →
    (22 ≤ s.opcodeAtPc → EndsInFault .unknownOpcode s (step s)) ∧
    (s.opcodeAtPc < 22 → ¬ EndsInFault .unknownOpcode s (step s))

/-- 30_encoding.md, illegal operand words: an operand word of 32776 or more, in every position of every opcode,
ends the run with `OperandOverflow` when it is read; no handler checks a register or a data cell for it. That
this is so also where a later operand word is missing, and not `OperandCountMismatch`, is decision D8 (log 13). -/
def Obligations.IllegalOperandEndsTheRun : Prop :=
  (∀ (s : State) (n : Nat), s.fetching → s.opcodeAtPc < 22 → n < arityOf s.opcodeAtPc →
    (∀ k < n, s.operandOk k) → s.pc.toNat + 1 + n < s.psize.val →
    32776 ≤ (s.readCell (s.pc.toNat + 1 + n)).toNat → EndsInFault .operandOverflow s (step s)) ∧
  (∀ (i : Instr) (s t : State), exec i s = .next t → s.fault ≠ some .operandOverflow →
    t.fault ≠ some .operandOverflow)

/-- R79: an instruction with an operand word at or beyond PSIZE ends in a decode fault; it is
`OperandCountMismatch` when the words before the missing one are legal. -/
def Obligations.MissingOperandEndsTheRun : Prop :=
  ∀ (s : State) (n : Nat), s.fetching → s.opcodeAtPc < 22 → n < arityOf s.opcodeAtPc →
    s.psize.val ≤ s.pc.toNat + 1 + n →
    (EndsInFault .operandCountMismatch s (step s) ∨ EndsInFault .operandOverflow s (step s)) ∧
    ((∀ k < n, s.operandOk k) → EndsInFault .operandCountMismatch s (step s))

/-- 40_cycle_and_operands.md, fetch and decode-time checks, as one equation: the step of a fetching engine is
the first fault in reading order, or the handler of the fetched opcode. The order among operands is decision
D8 (log 13), `pc` after a fault is decision D9 (log 14). -/
def Obligations.ChecksComeInReadingOrderBeforeTheHandler : Prop :=
  ∀ s : State, s.fetching →
    if 22 ≤ s.opcodeAtPc then step s = .next (s.raise .unknownOpcode)
    else
      match s.operandFault (s.pc.toNat + 1) (arityOf s.opcodeAtPc) with
      | some r => step s = .next (s.raise r)
      | none => ∃ i : Instr, i.opcode = s.opcodeAtPc ∧
          (∀ (k : Nat) (h : k < i.operandWords.length), i.operandWords[k] = s.readCell (s.pc.toNat + 1 + k)) ∧
          step s = exec i s

/-- 40_cycle_and_operands.md, the loop condition: `pc` at or above PSIZE, however it got there, ends the run in
EXHAUSTED, nothing else changes, and execute reports success (decisions D12 and D17, logs 17 and 21). -/
def Obligations.ExhaustionEndsTheRunCleanly : Prop :=
  ∀ s : State, s.run = .running → s.psize.val ≤ s.pc.toNat →
    step s = .next { s with run := .exhausted } ∧ (s.setRun .exhausted).result = some .success

/-- When the words at `pc` decode to `i`, the step of a running engine is the handler of `i` at that state:
the handler itself moves `pc` past the instruction's words (decision D16, log 20). The opcode numbers are
decision D1 (log 8). -/
def Obligations.StepRunsTheDecodedInstruction : Prop :=
  ∀ (s : State) (i : Instr) (rest : List Word), s.fetching →
    decode (s.readCell s.pc.toNat) (s.wordsFrom (s.pc.toNat + 1) 3) = .ok (i, rest) → step s = exec i s

/-- An instruction whose words stand in memory at `pc`, inside the image, is the one that runs. The opcode
numbers are decision D1 (log 8), one instruction a step is decision D16 (log 20). -/
def Obligations.EncodedInstructionAtPcRuns : Prop :=
  ∀ (s : State) (i : Instr), s.run = .running → s.pc.toNat + (encode i).length ≤ s.psize.val →
    (∀ (k : Nat) (h : k < (encode i).length), s.readCell (s.pc.toNat + k) = (encode i)[k]) → step s = exec i s

/-- 20_memory.md, ordering and coherence: after a WMEM, the next fetch sees the stored word where the store
hit and the old words elsewhere, also inside an instruction. That the store hits the cell of WMEM's address
itself is decision D4 (log 11), the opcode numbers are decision D1 (log 8). -/
def Obligations.StoreIsSeenByTheNextFetch : Prop :=
  ∀ (s t : State) (a b : Operand) (i : Instr) (p : Word), exec (.wmem a b) s = .next t →
    (s.value a).toNat < 32768 → s.run = .running → p.toNat + (encode i).length ≤ s.psize.val →
    (∀ (k : Nat) (h : k < (encode i).length),
      (encode i)[k] = if p.toNat + k = (s.value a).toNat then s.value b else s.readCell (p.toNat + k)) →
    step (t.setPc p) = exec i (t.setPc p)

/-- In IDLE, HALTED, EXHAUSTED and FAULTED a step of the engine changes nothing, and a released instance
refuses it (decision D13, log 18): the model's choice, log 6 (from 10_state.md, the run state). -/
def Obligations.EngineMovesOnlyWhileRunning : Prop :=
  ∀ s : State, (s.run ≠ .running → s.run ≠ .released → step s = .next s) ∧
    (s.run = .released → step s = .refused .afterFree)

/-- 40_cycle_and_operands.md, the end of a run: it ends in exactly three ways, HALTED by a HALT that runs,
EXHAUSTED by `pc` at or above PSIZE, FAULTED by a fault; execute returns success for the first two and the
reason for the third. That EXHAUSTED is an end of its own is decision D12 (log 17), that it takes every `pc` at
or above PSIZE, a wild jump's too, is decision D17 (log 21). -/
def Obligations.RunEndsInExactlyThreeWays : Prop :=
  ∀ s t : State, s.run = .running → step s = .next t →
    (t.run = .running ∨ t.run = .halted ∨ t.run = .exhausted ∨ t.run = .faulted) ∧
    (t.run = .halted ↔ s.pc.toNat < s.psize.val ∧ s.fetch = .ok .halt) ∧
    (t.run = .exhausted ↔ s.psize.val ≤ s.pc.toNat) ∧
    (t.run = .faulted ↔ ∃ r, EndsInFault r s (step s)) ∧
    (t.run = .running → t.result = none) ∧
    (t.run = .halted ∨ t.run = .exhausted → t.result = some .success) ∧
    (∀ r, t.run = .faulted → (t.fault = some r ↔ t.result = some (.fault r)))

/-! ### Faults (60_exceptions.md) -/

/-- 60_exceptions.md, faults are precise: a handler or a step that ends in a fault has changed nothing but RUN
and FAULT; that `pc` stays `ipc` is decision D9 (log 14). -/
def Obligations.FaultsArePrecise : Prop :=
  (∀ (i : Instr) (s t : State), s.run ≠ .faulted → exec i s = .next t → t.run = .faulted →
    ∃ r, t = { s with run := .faulted, fault := some r }) ∧
  (∀ s t : State, s.run = .running → step s = .next t → t.run = .faulted →
    ∃ r, t = { s with run := .faulted, fault := some r })

/-- 60_exceptions.md, which instruction can raise which fault: POP and RET StackUnderflow, RMEM and WMEM
MemoryOutOfBounds, MOD DivisionByZero, PUSH and CALL AllocationFailure, the other fifteen none. -/
def Obligations.HandlersRaiseOnlyTheirOwnFault : Prop :=
  ∀ (i : Instr) (s : State) (r : Fault), s.run ≠ .faulted → exec i s = .next (s.raise r) →
    handlerFault i = some r

/-- 60_exceptions.md, no return from a fault and no nesting: a faulted instance stays so under every move but
free, its FAULT is never cleared or replaced, and no step of the engine changes it. That a step there answers
the same state, and not no state, is the model's choice (log 6). -/
def Obligations.FaultIsFinal : Prop :=
  (∀ s : State, s.run = .faulted → step s = .next s) ∧
  (∀ (m : Option HostMove) (s t : State), s.run = .faulted → act m s = .next t →
    (t.run = .faulted ∨ m = some .free) ∧ t.fault = s.fault) ∧
  (∀ (m : Option HostMove) (s t : State) (r : Fault), s.Inv → s.fault = some r → act m s = .next t →
    t.fault = some r)

/-! ### Operands, memory and the stack -/

/-- R90: the value of an operand word: a word up to 32767 is itself, 32768 to 32775 the whole content of
register `w - 32768`, and a word of 32776 or more is no operand. -/
def Obligations.ValueOfOperandWord : Prop :=
  ∀ (w : Word) (s : State),
    (w.toNat ≤ 32767 → ∃ o, Operand.ofWord w = some o ∧ s.value o = w) ∧
    (∀ r : Fin 8, w.toNat = 32768 + r.val → ∃ o, Operand.ofWord w = some o ∧ s.value o = s.readReg r) ∧
    (32776 ≤ w.toNat → Operand.ofWord w = none)

/-- R91: a write through a target word: a register reference writes that register, whatever it holds; a
literal writes the memory cell of that address; nothing else changes, and no write faults. -/
def Obligations.TargetWriteReachesItsLocation : Prop :=
  ∀ (w v : Word) (o : Operand) (s : State), Operand.ofWord w = some o →
    (∀ r : Fin 8, w.toNat = 32768 + r.val →
      (s.targetWrite o v).readReg r = v ∧ SameBut [.reg r] s (s.targetWrite o v) ∧ (s.targetWrite o v).pc = s.pc) ∧
    (w.toNat ≤ 32767 →
      (s.targetWrite o v).readCell w.toNat = v ∧ SameBut [.cell w.toNat] s (s.targetWrite o v) ∧
      (s.targetWrite o v).pc = s.pc)

/-- R52: a read at 32768 or above is `MemoryOutOfBounds`, any other gives the cell's word. -/
def Obligations.MemReadIsBoundedByCapacity : Prop :=
  ∀ (s : State) (addr : Word),
    (32768 ≤ addr.toNat → s.memRead addr = .error .memoryOutOfBounds) ∧
    (addr.toNat < 32768 → s.memRead addr = .ok (s.readCell addr.toNat))

/-- R53: a write at 32768 or above is `MemoryOutOfBounds` and gives no new memory; any other stores all 16
bits in its cell and changes no other cell and nothing else. -/
def Obligations.MemWriteStoresOneWholeWord : Prop :=
  ∀ (s : State) (addr v : Word),
    (32768 ≤ addr.toNat → s.memWrite addr v = .error .memoryOutOfBounds) ∧
    (addr.toNat < 32768 → ∃ t, s.memWrite addr v = .ok t ∧ t.readCell addr.toNat = v ∧
      (∀ c, c ≠ addr.toNat → t.readCell c = s.readCell c) ∧ t = { s with mem := t.mem })

/-- 40_cycle_and_operands.md, stack primitives: `push` appends the whole word as the new top, or is
`AllocationFailure` at STACK_CAPACITY, an open parameter (decision D7, log 3). -/
def Obligations.PushAppendsUpToCapacity : Prop :=
  ∀ (s : State) (v : Word),
    (s.config.stackCapacity = some s.stack.length → s.push v = .error .allocationFailure) ∧
    ((s.config.stackCapacity = none ∨ ∃ n, s.config.stackCapacity = some n ∧ s.stack.length < n) →
      s.push v = .ok { s with stack := s.stack ++ [v] })

/-- R94: `pop` takes the top and returns it; on an empty stack it is `StackUnderflow`. -/
def Obligations.PopTakesTheTop : Prop :=
  (∀ s : State, s.stack = [] → s.pop = .error .stackUnderflow) ∧
  (∀ (s : State) (st : List Word) (v : Word), s.stack = st ++ [v] → s.pop = .ok (v, { s with stack := st }))

/-- R95: the stack is last-in-first-out, a pop of the empty stack faults, and no instruction reads or changes
an element below the top: two stacks that differ only below the top give the same outcome, and leave the same
words from the old top on. -/
def Obligations.StackIsLastInFirstOut : Prop :=
  (∀ (s t : State) (vs : List Word), s.pushAll vs = .ok t → t.popMany vs.length = .ok (vs.reverse, s)) ∧
  (∀ s : State, s.stack = [] → s.pop = .error .stackUnderflow) ∧
  (∀ (i : Instr) (s t : State), exec i s = .next t →
    t.stack = s.stack ∨ (∃ v, t.stack = s.stack ++ [v]) ∨ (∃ v, s.stack = t.stack ++ [v])) ∧
  (∀ (i : Instr) (s : State) (v : Word) (below below' : List Word), below.length = below'.length →
    mapNext (fun t => t.setStack (t.stack.drop below.length)) (exec i (s.setStack (below ++ [v]))) =
      mapNext (fun t => t.setStack (t.stack.drop below.length)) (exec i (s.setStack (below' ++ [v]))))

/-! ### System, move and stack instructions (41_system.md, 42_move_and_stack.md) -/

/-- HALT (41_system.md): RUN becomes HALTED, `pc` is `ipc + 1`, nothing else changes; no dump is modelled
(decision D11, log 16). -/
def Obligations.HaltStopsCleanly : Prop :=
  ∀ s : State, exec .halt s = .next { s with run := .halted, pc := s.pc + 1 }

/-- NOP (41_system.md): `pc` is `ipc + 1`, nothing else changes. -/
def Obligations.NopOnlyAdvances : Prop := ∀ s : State, exec .nop s = .next { s with pc := s.pc + 1 }

/-- SET a, b (42_move_and_stack.md): the target holds value(b), all 16 bits; `pc` is `ipc + 3`; nothing else
changes. -/
def Obligations.SetCopiesItsValue : Prop :=
  ∀ (a b : Operand) (s : State), ∃ t, exec (.set a b) s = .next t ∧
    t.readLoc (resolveTarget a) = s.value b ∧ t.pc = s.pc + 3 ∧ SameBut [resolveTarget a] s t

/-- PUSH a (42_move_and_stack.md): with room, value(a) is the new top and `pc` is `ipc + 2`; at STACK_CAPACITY
(decision D7, log 3) the run ends in `AllocationFailure`, `pc` unmoved (decision D9, log 14). -/
def Obligations.PushPutsItsValueOnTop : Prop :=
  ∀ (a : Operand) (s : State),
    ((s.config.stackCapacity = none ∨ ∃ n, s.config.stackCapacity = some n ∧ s.stack.length < n) →
      exec (.push a) s = .next { s with stack := s.stack ++ [s.value a], pc := s.pc + 2 }) ∧
    (s.config.stackCapacity = some s.stack.length →
      exec (.push a) s = .next { s with run := .faulted, fault := some .allocationFailure })

/-- POP a (42_move_and_stack.md): the top goes to the target, all 16 bits, and `pc` is `ipc + 2`; on an empty
stack the run ends in `StackUnderflow`, `pc` unmoved (decision D9, log 14). -/
def Obligations.PopMovesTheTopToItsTarget : Prop :=
  (∀ (a : Operand) (s : State) (st : List Word) (v : Word), s.stack = st ++ [v] →
    ∃ t, exec (.pop a) s = .next t ∧ t.readLoc (resolveTarget a) = v ∧ t.stack = st ∧ t.pc = s.pc + 2 ∧
      FrameBut [resolveTarget a] s t ∧ t.out = s.out ∧ t.inp = s.inp) ∧
  (∀ (a : Operand) (s : State), s.stack = [] →
    exec (.pop a) s = .next { s with run := .faulted, fault := some .stackUnderflow })

/-! ### Compares (43_compare.md) -/

/-- EQ a, b, c (43_compare.md): the target holds 1 if the two 16-bit values are equal, else 0; `pc` is
`ipc + 4`; nothing else changes. -/
def Obligations.EqWritesOneOrZero : Prop :=
  ∀ (a b c : Operand) (s : State), ∃ t, exec (.eq a b c) s = .next t ∧
    ((t.readLoc (resolveTarget a)).toNat = if (s.value b).toNat = (s.value c).toNat then 1 else 0) ∧
    t.pc = s.pc + 4 ∧ SameBut [resolveTarget a] s t

/-- GT a, b, c (43_compare.md): the target holds 1 if value(b) is greater than value(c) as unsigned 16-bit
integers, else 0; `pc` is `ipc + 4`; nothing else changes. -/
def Obligations.GtWritesOneOrZero : Prop :=
  ∀ (a b c : Operand) (s : State), ∃ t, exec (.gt a b c) s = .next t ∧
    ((t.readLoc (resolveTarget a)).toNat = if (s.value b).toNat > (s.value c).toNat then 1 else 0) ∧
    t.pc = s.pc + 4 ∧ SameBut [resolveTarget a] s t

/-! ### Control transfer (44_control_transfer.md) -/

/-- JMP a (44_control_transfer.md): `pc` is value(a), all 16 bits; nothing else changes. -/
def Obligations.JmpLoadsPc : Prop :=
  ∀ (a : Operand) (s : State), exec (.jmp a) s = .next { s with pc := s.value a }

/-- JT a, b (44_control_transfer.md): taken exactly when value(a), all 16 bits, is not zero. -/
def Obligations.JtJumpsWhenNonZero : Prop :=
  ∀ (a b : Operand) (s : State),
    exec (.jt a b) s = .next { s with pc := if (s.value a).toNat ≠ 0 then s.value b else s.pc + 3 }

/-- JF a, b (44_control_transfer.md): taken exactly when value(a), all 16 bits, is zero. -/
def Obligations.JfJumpsWhenZero : Prop :=
  ∀ (a b : Operand) (s : State),
    exec (.jf a b) s = .next { s with pc := if (s.value a).toNat = 0 then s.value b else s.pc + 3 }

/-- CALL a (44_control_transfer.md): with room, `ipc + 2` is the new top and `pc` is value(a); at
STACK_CAPACITY (decision D7, log 3) the run ends in `AllocationFailure`, `pc` unmoved (decision D9, log 14). -/
def Obligations.CallPushesTheReturnAddress : Prop :=
  ∀ (a : Operand) (s : State),
    ((s.config.stackCapacity = none ∨ ∃ n, s.config.stackCapacity = some n ∧ s.stack.length < n) →
      exec (.call a) s = .next { s with stack := s.stack ++ [s.pc + 2], pc := s.value a }) ∧
    (s.config.stackCapacity = some s.stack.length →
      exec (.call a) s = .next { s with run := .faulted, fault := some .allocationFailure })

/-- RET (44_control_transfer.md): the top goes to `pc`, all 16 bits; an empty stack is the fault
`StackUnderflow` (conflict C1, log 25), `pc` unmoved (decision D9, log 14). -/
def Obligations.RetPopsIntoPc : Prop :=
  (∀ (s : State) (st : List Word) (v : Word), s.stack = st ++ [v] →
    exec .ret s = .next { s with stack := st, pc := v }) ∧
  (∀ s : State, s.stack = [] → exec .ret s = .next { s with run := .faulted, fault := some .stackUnderflow })

/-- 44_control_transfer.md, CALL: a RET run with the stack the CALL left, whatever happened to the rest of
the state in between, resumes at the instruction after the CALL with the caller's stack. -/
def Obligations.CallThenRetResumesAfterTheCall : Prop :=
  ∀ (a : Operand) (s t u : State), s.run = .running → exec (.call a) s = .next t → t.run = .running →
    u.stack = t.stack → exec .ret u = .next { u with pc := s.pc + 2, stack := s.stack }

/-! ### ALU (45_alu.md) -/

/-- ADD a, b, c (45_alu.md): the target holds the integer sum modulo 32768; `pc` is `ipc + 4`; nothing else
changes. -/
def Obligations.AddStoresTheSumModulo32768 : Prop :=
  ∀ (a b c : Operand) (s : State), ∃ t, exec (.add a b c) s = .next t ∧
    (t.readLoc (resolveTarget a)).toNat = ((s.value b).toNat + (s.value c).toNat) % 32768 ∧
    t.pc = s.pc + 4 ∧ SameBut [resolveTarget a] s t

/-- MULT a, b, c (45_alu.md): the target holds the integer product modulo 32768; `pc` is `ipc + 4`; nothing
else changes. -/
def Obligations.MultStoresTheProductModulo32768 : Prop :=
  ∀ (a b c : Operand) (s : State), ∃ t, exec (.mult a b c) s = .next t ∧
    (t.readLoc (resolveTarget a)).toNat = ((s.value b).toNat * (s.value c).toNat) % 32768 ∧
    t.pc = s.pc + 4 ∧ SameBut [resolveTarget a] s t

/-- MOD a, b, c (45_alu.md): for a divisor that is not zero the target holds the unsigned remainder modulo
32768 (conflict C2, log 26) and `pc` is `ipc + 4`; a zero divisor ends the run in `DivisionByZero`, `pc`
unmoved (decision D9, log 14). -/
def Obligations.ModStoresTheRemainderModulo32768 : Prop :=
  ∀ (a b c : Operand) (s : State),
    ((s.value c).toNat ≠ 0 → ∃ t, exec (.mod a b c) s = .next t ∧
      (t.readLoc (resolveTarget a)).toNat = (s.value b).toNat % (s.value c).toNat % 32768 ∧
      t.pc = s.pc + 4 ∧ SameBut [resolveTarget a] s t) ∧
    ((s.value c).toNat = 0 → exec (.mod a b c) s = .next { s with run := .faulted, fault := some .divisionByZero })

/-- AND a, b, c (45_alu.md): bit by bit, and bit 15 of the result is 0 (conflict C2, log 26); `pc` is
`ipc + 4`; nothing else changes. -/
def Obligations.AndIsBitwiseOnFifteenBits : Prop :=
  ∀ (a b c : Operand) (s : State), ∃ t, exec (.and a b c) s = .next t ∧
    (∀ k, (t.readLoc (resolveTarget a)).getLsbD k =
      (decide (k < 15) && ((s.value b).getLsbD k && (s.value c).getLsbD k))) ∧
    t.pc = s.pc + 4 ∧ SameBut [resolveTarget a] s t

/-- OR a, b, c (45_alu.md): bit by bit, and bit 15 of the result is 0 (conflict C2, log 26); `pc` is
`ipc + 4`; nothing else changes. -/
def Obligations.OrIsBitwiseOnFifteenBits : Prop :=
  ∀ (a b c : Operand) (s : State), ∃ t, exec (.or a b c) s = .next t ∧
    (∀ k, (t.readLoc (resolveTarget a)).getLsbD k =
      (decide (k < 15) && ((s.value b).getLsbD k || (s.value c).getLsbD k))) ∧
    t.pc = s.pc + 4 ∧ SameBut [resolveTarget a] s t

/-- NOT a, b (45_alu.md): the 15-bit complement, `32767 - (value(b) mod 32768)`; `pc` is `ipc + 3`; nothing
else changes. -/
def Obligations.NotIsTheFifteenBitComplement : Prop :=
  ∀ (a b : Operand) (s : State), ∃ t, exec (.not a b) s = .next t ∧
    (t.readLoc (resolveTarget a)).toNat = 32767 - (s.value b).toNat % 32768 ∧
    t.pc = s.pc + 3 ∧ SameBut [resolveTarget a] s t

/-! ### Memory access and the ports (46_memory_access.md, 47_io.md) -/

/-- RMEM a, b (46_memory_access.md): the target holds the word of cell value(b), all 16 bits, and `pc` is
`ipc + 3`; an address of 32768 or more ends the run in `MemoryOutOfBounds`, `pc` unmoved (decision D9, log 14). -/
def Obligations.RmemLoadsOneWord : Prop :=
  ∀ (a b : Operand) (s : State),
    ((s.value b).toNat < 32768 → ∃ t, exec (.rmem a b) s = .next t ∧
      t.readLoc (resolveTarget a) = s.readCell (s.value b).toNat ∧ t.pc = s.pc + 3 ∧
      SameBut [resolveTarget a] s t) ∧
    (32768 ≤ (s.value b).toNat →
      exec (.rmem a b) s = .next { s with run := .faulted, fault := some .memoryOutOfBounds })

/-- WMEM a, b (46_memory_access.md): cell value(a) holds value(b), all 16 bits, and `pc` is `ipc + 3`; the
address is used directly (decision D4, log 11); an address of 32768 or more ends the run in
`MemoryOutOfBounds`, `pc` unmoved (decision D9, log 14). -/
def Obligations.WmemStoresOneWord : Prop :=
  ∀ (a b : Operand) (s : State),
    ((s.value a).toNat < 32768 → ∃ t, exec (.wmem a b) s = .next t ∧
      t.readCell (s.value a).toNat = s.value b ∧ t.pc = s.pc + 3 ∧
      SameBut [.cell (s.value a).toNat] s t) ∧
    (32768 ≤ (s.value a).toNat →
      exec (.wmem a b) s = .next { s with run := .faulted, fault := some .memoryOutOfBounds })

/-- OUT a (47_io.md): value(a), all 16 bits, is appended to OUT, its low 8 bits are what the port presents
(decision D6, log 12), `pc` is `ipc + 2`; nothing else changes. -/
def Obligations.OutAppendsItsValue : Prop :=
  ∀ (a : Operand) (s : State), ∃ t, exec (.out a) s = .next t ∧
    t = { s with out := s.out ++ [s.value a], pc := s.pc + 2 } ∧
    ∃ b : Byte, t.presented = s.presented ++ [b] ∧ b.toNat = (s.value a).toNat % 256

/-- IN a (47_io.md): the first byte of INP, zero-extended, goes to the target, is taken from INP, and `pc` is
`ipc + 2`; while INP is empty the engine holds and nothing changes (decision D5, log 5). -/
def Obligations.InTakesTheNextByteOrHolds : Prop :=
  (∀ (a : Operand) (s : State) (ch : Byte) (rest : List Byte), s.inp = ch :: rest →
    ∃ t, exec (.in_ a) s = .next t ∧ (t.readLoc (resolveTarget a)).toNat = ch.toNat ∧ t.inp = rest ∧
      t.pc = s.pc + 2 ∧ FrameBut [resolveTarget a] s t ∧ t.stack = s.stack ∧ t.out = s.out) ∧
  (∀ (a : Operand) (s : State), s.inp = [] → exec (.in_ a) s = .next s)

/-- 10_state.md, the two streams: in a step of the engine OUT grows only by an OUT, at its end, by one value,
and INP shrinks only by an IN, at its head, by one byte; of the host's moves only the supply of a byte
touches them, at INP's end. -/
def Obligations.StreamsMoveOnlyByOutAndIn : Prop :=
  (∀ s t : State, step s = .next t →
    (t.out = s.out ∨ ∃ a, s.fetch = .ok (.out a) ∧ t.out = s.out ++ [s.value a]) ∧
    (t.inp = s.inp ∨ ∃ a ch, s.fetch = .ok (.in_ a) ∧ s.inp = ch :: t.inp)) ∧
  (∀ (m : HostMove) (s t : State), hostMove m s = .next t →
    t.out = s.out ∧ (t.inp = s.inp ∨ ∃ b, m = .supply b ∧ t.inp = s.inp ++ [b]))

/-! ### The whole machine -/

/-- The invariant of Safety.lean (memory in canonical form, the stack within its capacity, the run state
consistent with LOADED, FAULT, PSIZE and the launch state) is kept by every step of the engine and every move
of the host. The canonical form is the model's own (log 1); that memory is zero before load is decision D20
(log 2), EXHAUSTED is decision D12 (log 17). -/
def Obligations.MovesKeepTheInvariant : Prop :=
  ∀ (m : Option HostMove) (s t : State), s.Inv → act m s = .next t → t.Inv

/-- The invariant holds at reset, for every stack capacity (decision D7, log 3). The clause that memory is zero
before load is decision D20 (log 2). -/
def Obligations.ResetMeetsTheInvariant : Prop := ∀ c : Config, (State.resetWith c).Inv

/-- 10_state.md, PSIZE and LOADED: no step of the engine writes PSIZE, LOADED, TRACE or the configuration, a
store beyond the image does not extend it, and no instruction reads PSIZE. -/
def Obligations.InstructionsNeitherWriteNorReadPsize : Prop :=
  (∀ s t : State, step s = .next t →
    t.psize = s.psize ∧ t.loaded = s.loaded ∧ t.trace = s.trace ∧ t.config = s.config) ∧
  (∀ (i : Instr) (s : State) (p : Fin 32769),
    exec i { s with psize := p } = mapNext (fun t => { t with psize := p }) (exec i s))

/-- 10_state.md, OUT and TRACE: no step reads what has been presented or the traceback: two states that differ
only there step to states that differ only there. -/
def Obligations.StepsDoNotReadOutOrTrace : Prop :=
  ∀ (s : State) (o : List Word) (q : Option Traceback),
    mapNext State.forgetRecords (step { s with out := o, trace := q }) =
      mapNext State.forgetRecords (step s)

/-! ### Reset, load, execute, free (70_reset_and_hazards.md) -/

/-- 10_state.md, the reset table: registers, pc, stack, PSIZE, LOADED, RUN, FAULT, TRACE and OUT as the spec
gives them. Memory reads 0 everywhere by decision D20 (log 2); INP is empty by the model's choice (log 4); the
configuration may be any (log 3). -/
def Obligations.ResetValues : Prop :=
  ∀ c : Config,
    (∀ r, (State.resetWith c).readReg r = 0) ∧ (State.resetWith c).pc = 0 ∧ (State.resetWith c).stack = [] ∧
    (∀ a, (State.resetWith c).readCell a = 0) ∧ (State.resetWith c).psize = 0 ∧
    (State.resetWith c).loaded = false ∧ (State.resetWith c).run = .idle ∧ (State.resetWith c).fault = none ∧
    (State.resetWith c).trace = none ∧ (State.resetWith c).out = [] ∧ (State.resetWith c).inp = []

/-- 10_state.md, LOADED: false after reset, set only by a successful load, never cleared, and while it is true
a load is rejected with AlreadyLoaded (until the instance is freed). That this is the error for an oversize
image too is decision D14 (log 19); that `load` answers it in every run state before free is the model's reading
(log 19): as a move of the host, a load is there only in IDLE. -/
def Obligations.LoadedIsSetOnceByLoad : Prop :=
  (∀ c : Config, (State.resetWith c).loaded = false) ∧
  (∀ (bytes : List Byte) (s t : State), load bytes s = .next (.success, t) →
    s.loaded = false ∧ t.loaded = true) ∧
  (∀ (m : Option HostMove) (s t : State), act m s = .next t → t.loaded ≠ s.loaded →
    ∃ bytes, m = some (.load bytes) ∧ load bytes s = .next (.success, t)) ∧
  (∀ (bytes : List Byte) (s : State), s.loaded = true → s.run ≠ .released →
    ∃ t, load bytes s = .next (.error .alreadyLoaded, t))

/-- 70_reset_and_hazards.md, the load checks: AlreadyLoaded first, then SizeExceeded above 65536 bytes (of an
even length, decision D3, log 10); only TRACE changes. Order and state after SizeExceeded are decision D14
(log 19), the trace's content decision D22 (log 23); that `load` answers AlreadyLoaded in every run state before
free is the model's reading (log 19). -/
def Obligations.RejectedLoadWritesOnlyTrace : Prop :=
  ∀ (bytes : List Byte) (s : State),
    (s.loaded = true → s.run ≠ .released →
      load bytes s = .next (.error .alreadyLoaded, { s with trace := some ⟨.load, .alreadyLoaded⟩ })) ∧
    (s.loaded = false → s.run = .idle → bytes.length % 2 = 0 → 65536 < bytes.length →
      load bytes s = .next (.error .sizeExceeded, { s with trace := some ⟨.load, .sizeExceeded⟩ }))

/-- 70_reset_and_hazards.md, a successful load: PSIZE is the length in words, cell `i` of the image its two
bytes, low byte first (decision D2, log 9), every other cell 0, LOADED true, nothing else changes. A length of
0 is accepted (decision D23, log 24). -/
def Obligations.LoadCopiesTheImage : Prop :=
  ∀ (bytes : List Byte) (s : State), s.loaded = false → s.run = .idle → bytes.length % 2 = 0 →
    bytes.length ≤ 65536 →
    ∃ t, load bytes s = .next (.success, t) ∧ t.psize.val = bytes.length / 2 ∧ t.loaded = true ∧
      (∀ i, i < bytes.length / 2 →
        (t.readCell i).toNat = (bytes.getD (2 * i) 0).toNat + 256 * (bytes.getD (2 * i + 1) 0).toNat) ∧
      (∀ i, bytes.length / 2 ≤ i → t.readCell i = 0) ∧
      t = { s with psize := t.psize, mem := t.mem, loaded := true }

/-- 70_reset_and_hazards.md, execute: from IDLE with LOADED the run starts, and in a state that meets the
invariant it starts from the launch state: registers 0, pc 0, stack and OUT empty, FAULT none. -/
def Obligations.ExecuteStartsTheRun : Prop :=
  ∀ s : State, s.run = .idle → s.loaded = true →
    execute s = .next { s with run := .running } ∧
    (s.Inv → (∀ r, s.readReg r = 0) ∧ s.pc = 0 ∧ s.stack = [] ∧ s.out = [] ∧ s.fault = none)

/-- 70_reset_and_hazards.md, what has no meaning is refused by name: an odd image (decision D3, log 10),
execute before load and twice, and everything after free (decision D13, log 18); and what the table of the
host's moves does not allow yet or any more: free before the run has ended, a load after IDLE (log 19). -/
def Obligations.OutOfOrderHostMovesAreRefused : Prop :=
  ∀ s : State,
    (∀ bytes : List Byte, s.run = .idle → s.loaded = false → bytes.length % 2 = 1 →
      load bytes s = .refused .oddLength) ∧
    (s.run = .idle → s.loaded = false → execute s = .refused .executeBeforeLoad) ∧
    (s.run ≠ .idle → s.run ≠ .released → execute s = .refused .executeTwice) ∧
    (s.run ≠ .idle → s.run ≠ .released → ∀ bytes, hostMove (.load bytes) s = .refused .loadOutOfOrder) ∧
    (s.run = .idle ∨ s.run = .running → free s = .refused .freeBeforeEnd) ∧
    (s.run = .released → ∀ m, act m s = .refused .afterFree)

/-- 70_reset_and_hazards.md, free: after the run has ended, RUN becomes RELEASED and nothing else changes. -/
def Obligations.FreeReleasesAnEndedRun : Prop :=
  ∀ s : State, s.cleanStop ∨ s.run = .faulted → free s = .next { s with run := .released }

/-- 70_reset_and_hazards.md, the host's moves: during a run the host can only append to INP; it cannot stop the
run or touch registers, memory, stack, pc or anything else. -/
def Obligations.HostCannotDisturbARun : Prop :=
  ∀ (m : HostMove) (s t : State), s.run = .running → hostMove m s = .next t →
    s.inp <+: t.inp ∧ t = { s with inp := t.inp }
end

