-- ==== Sys2Proof/Laws/Decode.lean ====
section
/-! SUPPORT. The small lemmas of the decoder: one operand word, and reading it. -/

namespace Sys2Proof

theorem Operand.toWord_toNat_lit (n : BitVec 15) : (Operand.lit n).toWord.toNat = n.toNat := by
  have := n.isLt
  simp only [Operand.toWord, BitVec.toNat_ofNat]; omega

theorem Operand.toWord_toNat_reg (r : Fin 8) : (Operand.reg r).toWord.toNat = 32768 + r.val := by
  have := r.isLt
  simp only [Operand.toWord, BitVec.toNat_ofNat]; omega

/-- The three classes of an operand word (R72). -/
theorem Operand.ofWord_lit (w : Word) (h : w.toNat < 32768) : Operand.ofWord w = some (.lit (BitVec.ofNat 15 w.toNat)) := by
  simp [Operand.ofWord, h]

theorem Operand.ofWord_reg (w : Word) (r : Fin 8) (h : w.toNat = 32768 + r.val) : Operand.ofWord w = some (.reg r) := by
  have := r.isLt
  have e : Fin.ofNat 8 (w.toNat - 32768) = r := Fin.ext (by rw [Fin.val_ofNat]; omega)
  rw [Operand.ofWord, if_neg (by omega), if_pos (by omega), e]

theorem Operand.ofWord_illegal (w : Word) (h : 32776 ≤ w.toNat) : Operand.ofWord w = none := by
  rw [Operand.ofWord, if_neg (by omega), if_neg (by omega)]

theorem Operand.ofWord_isSome (w : Word) (h : w.toNat < 32776) : ∃ o, Operand.ofWord w = some o := by
  by_cases h' : w.toNat < 32768
  · exact ⟨_, Operand.ofWord_lit w h'⟩
  · exact ⟨_, Operand.ofWord_reg w ⟨w.toNat - 32768, by omega⟩ (by simp; omega)⟩

@[simp] theorem Operand.ofWord_toWord (o : Operand) : Operand.ofWord o.toWord = some o := by
  cases o with
  | lit n =>
    have h := Operand.toWord_toNat_lit n
    rw [Operand.ofWord_lit _ (by rw [h]; exact n.isLt), h]
    simp
  | reg r => exact Operand.ofWord_reg _ r (Operand.toWord_toNat_reg r)

theorem Operand.toWord_of_ofWord (w : Word) (o : Operand) (h : Operand.ofWord w = some o) : o.toWord = w := by
  apply BitVec.eq_of_toNat_eq
  unfold Operand.ofWord at h
  split at h
  · cases h; rw [Operand.toWord_toNat_lit]; simp; omega
  split at h
  · cases h
    rw [Operand.toWord_toNat_reg, Fin.val_ofNat]
    omega
  · cases h

theorem Operand.toWord_legal (o : Operand) : o.toWord.toNat < 32776 := by
  cases o with
  | lit n => have := n.isLt; rw [Operand.toWord_toNat_lit]; omega
  | reg r => have := r.isLt; rw [Operand.toWord_toNat_reg]; omega

@[simp] theorem legalOperand_toWord (o : Operand) : legalOperand o.toWord = true := by
  simpa [legalOperand] using o.toWord_legal

@[simp] theorem takeOperand_toWord (o : Operand) (ws : List Word) : takeOperand (o.toWord :: ws) = .ok (o, ws) := by
  simp [takeOperand]

/-- What reading one operand word can do (R98 (2)). -/
theorem takeOperand_cases (ws : List Word) :
    (ws = [] ∧ takeOperand ws = .error .operandCountMismatch) ∨
    (∃ w rest, ws = w :: rest ∧ 32776 ≤ w.toNat ∧ takeOperand ws = .error .operandOverflow) ∨
    (∃ o rest, ws = o.toWord :: rest ∧ takeOperand ws = .ok (o, rest)) := by
  cases ws with
  | nil => exact .inl ⟨rfl, rfl⟩
  | cons w rest =>
    right
    by_cases h : w.toNat < 32776
    · obtain ⟨o, ho⟩ := Operand.ofWord_isSome w h
      exact .inr ⟨o, rest, by rw [Operand.toWord_of_ofWord w o ho], by simp [takeOperand, ho]⟩
    · exact .inl ⟨w, rest, rfl, by omega, by simp [takeOperand, Operand.ofWord_illegal w (by omega)]⟩

theorem takeOperand_ok {ws rest : List Word} {o : Operand} (h : takeOperand ws = .ok (o, rest)) : ws = o.toWord :: rest := by
  rcases takeOperand_cases ws with ⟨_, e⟩ | ⟨w, r, _, _, e⟩ | ⟨o', r, hw, e⟩ <;> rw [e] at h <;> cases h
  exact hw

/-! ### Opcodes and arities (R71, R74, R77) -/

theorem Instr.opcode_lt (i : Instr) : i.opcode < 22 := by cases i <;> simp [Instr.opcode]

theorem Instr.operandWords_length (i : Instr) : i.operandWords.length = arityOf i.opcode := by cases i <;> rfl

theorem arityOf_le (n : Nat) : arityOf n ≤ 3 := by unfold arityOf; split <;> omega

theorem decode_unknown (op : Word) (ws : List Word) (h : 22 ≤ op.toNat) : decode op ws = .error .unknownOpcode := by
  unfold decode
  split <;> first | omega | rfl

end Sys2Proof
end

