-- ==== Sys2Proof/Laws/State.lean ====
section
/-! SUPPORT. One lemma per field per update of the state, true by `rfl`, and the reads of registers and cells
after each update, so that no later proof unfolds a record update. -/

namespace Sys2Proof.Machine

/-! ### `State.writeReg` -/

@[simp] theorem State.writeReg_regs (s : State) (r : Fin 8) (v : Word) : (s.writeReg r v).regs = s.regs.set r v := rfl
@[simp] theorem State.writeReg_pc (s : State) (r : Fin 8) (v : Word) : (s.writeReg r v).pc = s.pc := rfl
@[simp] theorem State.writeReg_mem (s : State) (r : Fin 8) (v : Word) : (s.writeReg r v).mem = s.mem := rfl
@[simp] theorem State.writeReg_stack (s : State) (r : Fin 8) (v : Word) : (s.writeReg r v).stack = s.stack := rfl
@[simp] theorem State.writeReg_psize (s : State) (r : Fin 8) (v : Word) : (s.writeReg r v).psize = s.psize := rfl
@[simp] theorem State.writeReg_loaded (s : State) (r : Fin 8) (v : Word) : (s.writeReg r v).loaded = s.loaded := rfl
@[simp] theorem State.writeReg_run (s : State) (r : Fin 8) (v : Word) : (s.writeReg r v).run = s.run := rfl
@[simp] theorem State.writeReg_fault (s : State) (r : Fin 8) (v : Word) : (s.writeReg r v).fault = s.fault := rfl
@[simp] theorem State.writeReg_trace (s : State) (r : Fin 8) (v : Word) : (s.writeReg r v).trace = s.trace := rfl
@[simp] theorem State.writeReg_out (s : State) (r : Fin 8) (v : Word) : (s.writeReg r v).out = s.out := rfl
@[simp] theorem State.writeReg_inp (s : State) (r : Fin 8) (v : Word) : (s.writeReg r v).inp = s.inp := rfl
@[simp] theorem State.writeReg_config (s : State) (r : Fin 8) (v : Word) : (s.writeReg r v).config = s.config := rfl
@[simp] theorem State.readCell_writeReg (s : State) (r : Fin 8) (v : Word) (c : Nat) : (s.writeReg r v).readCell c = s.readCell c := rfl

/-! ### `State.writeCell` -/

@[simp] theorem State.writeCell_regs (s : State) (a : Nat) (v : Word) : (s.writeCell a v).regs = s.regs := rfl
@[simp] theorem State.writeCell_pc (s : State) (a : Nat) (v : Word) : (s.writeCell a v).pc = s.pc := rfl
@[simp] theorem State.writeCell_mem (s : State) (a : Nat) (v : Word) : (s.writeCell a v).mem = s.mem.writeWord a v := rfl
@[simp] theorem State.writeCell_stack (s : State) (a : Nat) (v : Word) : (s.writeCell a v).stack = s.stack := rfl
@[simp] theorem State.writeCell_psize (s : State) (a : Nat) (v : Word) : (s.writeCell a v).psize = s.psize := rfl
@[simp] theorem State.writeCell_loaded (s : State) (a : Nat) (v : Word) : (s.writeCell a v).loaded = s.loaded := rfl
@[simp] theorem State.writeCell_run (s : State) (a : Nat) (v : Word) : (s.writeCell a v).run = s.run := rfl
@[simp] theorem State.writeCell_fault (s : State) (a : Nat) (v : Word) : (s.writeCell a v).fault = s.fault := rfl
@[simp] theorem State.writeCell_trace (s : State) (a : Nat) (v : Word) : (s.writeCell a v).trace = s.trace := rfl
@[simp] theorem State.writeCell_out (s : State) (a : Nat) (v : Word) : (s.writeCell a v).out = s.out := rfl
@[simp] theorem State.writeCell_inp (s : State) (a : Nat) (v : Word) : (s.writeCell a v).inp = s.inp := rfl
@[simp] theorem State.writeCell_config (s : State) (a : Nat) (v : Word) : (s.writeCell a v).config = s.config := rfl
@[simp] theorem State.readReg_writeCell (s : State) (a : Nat) (v : Word) (q : Fin 8) : (s.writeCell a v).readReg q = s.readReg q := rfl

/-! ### `State.setPc` -/

@[simp] theorem State.setPc_regs (s : State) (p : Word) : (s.setPc p).regs = s.regs := rfl
@[simp] theorem State.setPc_pc (s : State) (p : Word) : (s.setPc p).pc = p := rfl
@[simp] theorem State.setPc_mem (s : State) (p : Word) : (s.setPc p).mem = s.mem := rfl
@[simp] theorem State.setPc_stack (s : State) (p : Word) : (s.setPc p).stack = s.stack := rfl
@[simp] theorem State.setPc_psize (s : State) (p : Word) : (s.setPc p).psize = s.psize := rfl
@[simp] theorem State.setPc_loaded (s : State) (p : Word) : (s.setPc p).loaded = s.loaded := rfl
@[simp] theorem State.setPc_run (s : State) (p : Word) : (s.setPc p).run = s.run := rfl
@[simp] theorem State.setPc_fault (s : State) (p : Word) : (s.setPc p).fault = s.fault := rfl
@[simp] theorem State.setPc_trace (s : State) (p : Word) : (s.setPc p).trace = s.trace := rfl
@[simp] theorem State.setPc_out (s : State) (p : Word) : (s.setPc p).out = s.out := rfl
@[simp] theorem State.setPc_inp (s : State) (p : Word) : (s.setPc p).inp = s.inp := rfl
@[simp] theorem State.setPc_config (s : State) (p : Word) : (s.setPc p).config = s.config := rfl
@[simp] theorem State.readReg_setPc (s : State) (p : Word) (q : Fin 8) : (s.setPc p).readReg q = s.readReg q := rfl
@[simp] theorem State.readCell_setPc (s : State) (p : Word) (c : Nat) : (s.setPc p).readCell c = s.readCell c := rfl

/-! ### `State.advance` -/

@[simp] theorem State.advance_regs (s : State) (n : Nat) : (s.advance n).regs = s.regs := rfl
@[simp] theorem State.advance_pc (s : State) (n : Nat) : (s.advance n).pc = s.nextPc n := rfl
@[simp] theorem State.advance_mem (s : State) (n : Nat) : (s.advance n).mem = s.mem := rfl
@[simp] theorem State.advance_stack (s : State) (n : Nat) : (s.advance n).stack = s.stack := rfl
@[simp] theorem State.advance_psize (s : State) (n : Nat) : (s.advance n).psize = s.psize := rfl
@[simp] theorem State.advance_loaded (s : State) (n : Nat) : (s.advance n).loaded = s.loaded := rfl
@[simp] theorem State.advance_run (s : State) (n : Nat) : (s.advance n).run = s.run := rfl
@[simp] theorem State.advance_fault (s : State) (n : Nat) : (s.advance n).fault = s.fault := rfl
@[simp] theorem State.advance_trace (s : State) (n : Nat) : (s.advance n).trace = s.trace := rfl
@[simp] theorem State.advance_out (s : State) (n : Nat) : (s.advance n).out = s.out := rfl
@[simp] theorem State.advance_inp (s : State) (n : Nat) : (s.advance n).inp = s.inp := rfl
@[simp] theorem State.advance_config (s : State) (n : Nat) : (s.advance n).config = s.config := rfl
@[simp] theorem State.readReg_advance (s : State) (n : Nat) (q : Fin 8) : (s.advance n).readReg q = s.readReg q := rfl
@[simp] theorem State.readCell_advance (s : State) (n : Nat) (c : Nat) : (s.advance n).readCell c = s.readCell c := rfl

/-! ### `State.setStack` -/

@[simp] theorem State.setStack_regs (s : State) (st : List Word) : (s.setStack st).regs = s.regs := rfl
@[simp] theorem State.setStack_pc (s : State) (st : List Word) : (s.setStack st).pc = s.pc := rfl
@[simp] theorem State.setStack_mem (s : State) (st : List Word) : (s.setStack st).mem = s.mem := rfl
@[simp] theorem State.setStack_stack (s : State) (st : List Word) : (s.setStack st).stack = st := rfl
@[simp] theorem State.setStack_psize (s : State) (st : List Word) : (s.setStack st).psize = s.psize := rfl
@[simp] theorem State.setStack_loaded (s : State) (st : List Word) : (s.setStack st).loaded = s.loaded := rfl
@[simp] theorem State.setStack_run (s : State) (st : List Word) : (s.setStack st).run = s.run := rfl
@[simp] theorem State.setStack_fault (s : State) (st : List Word) : (s.setStack st).fault = s.fault := rfl
@[simp] theorem State.setStack_trace (s : State) (st : List Word) : (s.setStack st).trace = s.trace := rfl
@[simp] theorem State.setStack_out (s : State) (st : List Word) : (s.setStack st).out = s.out := rfl
@[simp] theorem State.setStack_inp (s : State) (st : List Word) : (s.setStack st).inp = s.inp := rfl
@[simp] theorem State.setStack_config (s : State) (st : List Word) : (s.setStack st).config = s.config := rfl
@[simp] theorem State.readReg_setStack (s : State) (st : List Word) (q : Fin 8) : (s.setStack st).readReg q = s.readReg q := rfl
@[simp] theorem State.readCell_setStack (s : State) (st : List Word) (c : Nat) : (s.setStack st).readCell c = s.readCell c := rfl

/-! ### `State.outValue` -/

@[simp] theorem State.outValue_regs (s : State) (v : Word) : (s.outValue v).regs = s.regs := rfl
@[simp] theorem State.outValue_pc (s : State) (v : Word) : (s.outValue v).pc = s.pc := rfl
@[simp] theorem State.outValue_mem (s : State) (v : Word) : (s.outValue v).mem = s.mem := rfl
@[simp] theorem State.outValue_stack (s : State) (v : Word) : (s.outValue v).stack = s.stack := rfl
@[simp] theorem State.outValue_psize (s : State) (v : Word) : (s.outValue v).psize = s.psize := rfl
@[simp] theorem State.outValue_loaded (s : State) (v : Word) : (s.outValue v).loaded = s.loaded := rfl
@[simp] theorem State.outValue_run (s : State) (v : Word) : (s.outValue v).run = s.run := rfl
@[simp] theorem State.outValue_fault (s : State) (v : Word) : (s.outValue v).fault = s.fault := rfl
@[simp] theorem State.outValue_trace (s : State) (v : Word) : (s.outValue v).trace = s.trace := rfl
@[simp] theorem State.outValue_out (s : State) (v : Word) : (s.outValue v).out = s.out ++ [v] := rfl
@[simp] theorem State.outValue_inp (s : State) (v : Word) : (s.outValue v).inp = s.inp := rfl
@[simp] theorem State.outValue_config (s : State) (v : Word) : (s.outValue v).config = s.config := rfl
@[simp] theorem State.readReg_outValue (s : State) (v : Word) (q : Fin 8) : (s.outValue v).readReg q = s.readReg q := rfl
@[simp] theorem State.readCell_outValue (s : State) (v : Word) (c : Nat) : (s.outValue v).readCell c = s.readCell c := rfl

/-! ### `State.setInp` -/

@[simp] theorem State.setInp_regs (s : State) (bs : List Byte) : (s.setInp bs).regs = s.regs := rfl
@[simp] theorem State.setInp_pc (s : State) (bs : List Byte) : (s.setInp bs).pc = s.pc := rfl
@[simp] theorem State.setInp_mem (s : State) (bs : List Byte) : (s.setInp bs).mem = s.mem := rfl
@[simp] theorem State.setInp_stack (s : State) (bs : List Byte) : (s.setInp bs).stack = s.stack := rfl
@[simp] theorem State.setInp_psize (s : State) (bs : List Byte) : (s.setInp bs).psize = s.psize := rfl
@[simp] theorem State.setInp_loaded (s : State) (bs : List Byte) : (s.setInp bs).loaded = s.loaded := rfl
@[simp] theorem State.setInp_run (s : State) (bs : List Byte) : (s.setInp bs).run = s.run := rfl
@[simp] theorem State.setInp_fault (s : State) (bs : List Byte) : (s.setInp bs).fault = s.fault := rfl
@[simp] theorem State.setInp_trace (s : State) (bs : List Byte) : (s.setInp bs).trace = s.trace := rfl
@[simp] theorem State.setInp_out (s : State) (bs : List Byte) : (s.setInp bs).out = s.out := rfl
@[simp] theorem State.setInp_inp (s : State) (bs : List Byte) : (s.setInp bs).inp = bs := rfl
@[simp] theorem State.setInp_config (s : State) (bs : List Byte) : (s.setInp bs).config = s.config := rfl
@[simp] theorem State.readReg_setInp (s : State) (bs : List Byte) (q : Fin 8) : (s.setInp bs).readReg q = s.readReg q := rfl
@[simp] theorem State.readCell_setInp (s : State) (bs : List Byte) (c : Nat) : (s.setInp bs).readCell c = s.readCell c := rfl

/-! ### `State.setRun` -/

@[simp] theorem State.setRun_regs (s : State) (r : RunState) : (s.setRun r).regs = s.regs := rfl
@[simp] theorem State.setRun_pc (s : State) (r : RunState) : (s.setRun r).pc = s.pc := rfl
@[simp] theorem State.setRun_mem (s : State) (r : RunState) : (s.setRun r).mem = s.mem := rfl
@[simp] theorem State.setRun_stack (s : State) (r : RunState) : (s.setRun r).stack = s.stack := rfl
@[simp] theorem State.setRun_psize (s : State) (r : RunState) : (s.setRun r).psize = s.psize := rfl
@[simp] theorem State.setRun_loaded (s : State) (r : RunState) : (s.setRun r).loaded = s.loaded := rfl
@[simp] theorem State.setRun_run (s : State) (r : RunState) : (s.setRun r).run = r := rfl
@[simp] theorem State.setRun_fault (s : State) (r : RunState) : (s.setRun r).fault = s.fault := rfl
@[simp] theorem State.setRun_trace (s : State) (r : RunState) : (s.setRun r).trace = s.trace := rfl
@[simp] theorem State.setRun_out (s : State) (r : RunState) : (s.setRun r).out = s.out := rfl
@[simp] theorem State.setRun_inp (s : State) (r : RunState) : (s.setRun r).inp = s.inp := rfl
@[simp] theorem State.setRun_config (s : State) (r : RunState) : (s.setRun r).config = s.config := rfl
@[simp] theorem State.readReg_setRun (s : State) (r : RunState) (q : Fin 8) : (s.setRun r).readReg q = s.readReg q := rfl
@[simp] theorem State.readCell_setRun (s : State) (r : RunState) (c : Nat) : (s.setRun r).readCell c = s.readCell c := rfl

/-! ### `State.raise` -/

@[simp] theorem State.raise_regs (s : State) (r : Fault) : (s.raise r).regs = s.regs := rfl
@[simp] theorem State.raise_pc (s : State) (r : Fault) : (s.raise r).pc = s.pc := rfl
@[simp] theorem State.raise_mem (s : State) (r : Fault) : (s.raise r).mem = s.mem := rfl
@[simp] theorem State.raise_stack (s : State) (r : Fault) : (s.raise r).stack = s.stack := rfl
@[simp] theorem State.raise_psize (s : State) (r : Fault) : (s.raise r).psize = s.psize := rfl
@[simp] theorem State.raise_loaded (s : State) (r : Fault) : (s.raise r).loaded = s.loaded := rfl
@[simp] theorem State.raise_run (s : State) (r : Fault) : (s.raise r).run = .faulted := rfl
@[simp] theorem State.raise_fault (s : State) (r : Fault) : (s.raise r).fault = some r := rfl
@[simp] theorem State.raise_trace (s : State) (r : Fault) : (s.raise r).trace = s.trace := rfl
@[simp] theorem State.raise_out (s : State) (r : Fault) : (s.raise r).out = s.out := rfl
@[simp] theorem State.raise_inp (s : State) (r : Fault) : (s.raise r).inp = s.inp := rfl
@[simp] theorem State.raise_config (s : State) (r : Fault) : (s.raise r).config = s.config := rfl
@[simp] theorem State.readReg_raise (s : State) (r : Fault) (q : Fin 8) : (s.raise r).readReg q = s.readReg q := rfl
@[simp] theorem State.readCell_raise (s : State) (r : Fault) (c : Nat) : (s.raise r).readCell c = s.readCell c := rfl

/-! ### Registers -/

@[simp] theorem State.readReg_writeReg_same (s : State) (r : Fin 8) (v : Word) : (s.writeReg r v).readReg r = v := by
  simp [State.readReg]

theorem State.readReg_writeReg_other (s : State) (v : Word) (r q : Fin 8) (h : r ≠ q) : (s.writeReg r v).readReg q = s.readReg q := by
  simp only [State.readReg, State.writeReg, Fin.getElem_fin]
  exact Vector.getElem_set_ne r.isLt q.isLt (by omega)

/-- Two register files that agree on every register are equal. -/
theorem State.regs_eq_of_readReg (s t : State) (h : ∀ r, s.readReg r = t.readReg r) : s.regs = t.regs := by
  ext i hi : 1
  exact h ⟨i, hi⟩

/-! ### `State.writeLoc` and `State.targetWrite`: all but registers and memory -/

@[simp] theorem State.writeLoc_pc (s : State) (l : Location) (v : Word) : (s.writeLoc l v).pc = s.pc := by cases l <;> rfl
@[simp] theorem State.targetWrite_pc (s : State) (a : Operand) (v : Word) : (s.targetWrite a v).pc = s.pc := by cases a <;> rfl
@[simp] theorem State.writeLoc_stack (s : State) (l : Location) (v : Word) : (s.writeLoc l v).stack = s.stack := by cases l <;> rfl
@[simp] theorem State.targetWrite_stack (s : State) (a : Operand) (v : Word) : (s.targetWrite a v).stack = s.stack := by cases a <;> rfl
@[simp] theorem State.writeLoc_psize (s : State) (l : Location) (v : Word) : (s.writeLoc l v).psize = s.psize := by cases l <;> rfl
@[simp] theorem State.targetWrite_psize (s : State) (a : Operand) (v : Word) : (s.targetWrite a v).psize = s.psize := by cases a <;> rfl
@[simp] theorem State.writeLoc_loaded (s : State) (l : Location) (v : Word) : (s.writeLoc l v).loaded = s.loaded := by cases l <;> rfl
@[simp] theorem State.targetWrite_loaded (s : State) (a : Operand) (v : Word) : (s.targetWrite a v).loaded = s.loaded := by cases a <;> rfl
@[simp] theorem State.writeLoc_run (s : State) (l : Location) (v : Word) : (s.writeLoc l v).run = s.run := by cases l <;> rfl
@[simp] theorem State.targetWrite_run (s : State) (a : Operand) (v : Word) : (s.targetWrite a v).run = s.run := by cases a <;> rfl
@[simp] theorem State.writeLoc_fault (s : State) (l : Location) (v : Word) : (s.writeLoc l v).fault = s.fault := by cases l <;> rfl
@[simp] theorem State.targetWrite_fault (s : State) (a : Operand) (v : Word) : (s.targetWrite a v).fault = s.fault := by cases a <;> rfl
@[simp] theorem State.writeLoc_trace (s : State) (l : Location) (v : Word) : (s.writeLoc l v).trace = s.trace := by cases l <;> rfl
@[simp] theorem State.targetWrite_trace (s : State) (a : Operand) (v : Word) : (s.targetWrite a v).trace = s.trace := by cases a <;> rfl
@[simp] theorem State.writeLoc_out (s : State) (l : Location) (v : Word) : (s.writeLoc l v).out = s.out := by cases l <;> rfl
@[simp] theorem State.targetWrite_out (s : State) (a : Operand) (v : Word) : (s.targetWrite a v).out = s.out := by cases a <;> rfl
@[simp] theorem State.writeLoc_inp (s : State) (l : Location) (v : Word) : (s.writeLoc l v).inp = s.inp := by cases l <;> rfl
@[simp] theorem State.targetWrite_inp (s : State) (a : Operand) (v : Word) : (s.targetWrite a v).inp = s.inp := by cases a <;> rfl
@[simp] theorem State.writeLoc_config (s : State) (l : Location) (v : Word) : (s.writeLoc l v).config = s.config := by cases l <;> rfl
@[simp] theorem State.targetWrite_config (s : State) (a : Operand) (v : Word) : (s.targetWrite a v).config = s.config := by cases a <;> rfl

end Sys2Proof.Machine
end

