-- ==== Sys2Proof/Laws/Memory.lean ====
section
/-! SUPPORT. The laws of memory: a read after a write to the same place gives the value written, a write leaves
every other place alone, and every operation keeps the canonical form. -/

namespace Sys2Proof.Machine

/-! ### Bytes of a word (R58) -/

theorem wordOfBytes_toNat (lo hi : Byte) : (wordOfBytes lo hi).toNat = lo.toNat + 256 * hi.toNat := by
  have := lo.isLt
  rw [wordOfBytes, BitVec.toNat_append, Nat.shiftLeft_eq, ← Nat.shiftLeft_eq, ← Nat.shiftLeft_add_eq_or_of_lt this, Nat.shiftLeft_eq]
  omega

theorem lowByte_toNat (w : Word) : (lowByte w).toNat = w.toNat % 256 := by
  simp [lowByte]

theorem highByte_toNat (w : Word) : (highByte w).toNat = w.toNat / 256 := by
  have := w.isLt
  simp [highByte, Nat.shiftRight_eq_div_pow]
  omega

@[simp] theorem wordOfBytes_low_high (w : Word) : wordOfBytes (lowByte w) (highByte w) = w := by
  apply BitVec.eq_of_toNat_eq
  rw [wordOfBytes_toNat, lowByte_toNat, highByte_toNat]
  omega

/-! ### One byte -/

@[simp] theorem Memory.readByte_nil (k : Nat) : Memory.readByte [] k = 0 := rfl

theorem Memory.readByte_consCell (k j : Nat) (b : Byte) (m : Memory) (h : m.readByte k = 0) :
    (Memory.consCell k b m).readByte j = if j = k then b else m.readByte j := by
  unfold Memory.consCell
  split
  · split
    · subst_vars; simpa [Memory.unlisted] using h
    · rfl
  · simp [Memory.readByte, eq_comm]

theorem Memory.readByte_insertCell (m : Memory) (k j : Nat) (b : Byte) (h : m.readByte k = 0) :
    (Memory.insertCell m k b).readByte j = if j = k then b else m.readByte j := by
  induction m with
  | nil => exact Memory.readByte_consCell k j b [] rfl
  | cons c m ih =>
    obtain ⟨i, d⟩ := c
    unfold Memory.insertCell
    split
    · have hk : Memory.readByte m k = 0 := by rw [← h, Memory.readByte, if_neg (by omega)]
      rw [Memory.readByte, ih hk, Memory.readByte]
      split <;> split <;> first | rfl | omega
    · exact Memory.readByte_consCell k j b _ h

theorem Memory.readByte_filter (m : Memory) (k j : Nat) :
    Memory.readByte (m.filter fun c => c.1 ≠ k) j = if j = k then 0 else m.readByte j := by
  induction m with
  | nil => simp
  | cons c m ih =>
    obtain ⟨i, d⟩ := c
    by_cases hi : i = k
    · rw [List.filter_cons_of_neg (by simpa using hi), ih, Memory.readByte]
      split <;> simp_all
      omega
    · rw [List.filter_cons_of_pos (by simpa using hi), Memory.readByte, ih, Memory.readByte]
      split <;> split <;> simp_all

/-- A read of one byte after a write of one byte, for every list. -/
theorem Memory.readByte_writeByte (m : Memory) (k j : Nat) (b : Byte) :
    (m.writeByte k b).readByte j = if j = k then b else m.readByte j := by
  rw [Memory.writeByte, Memory.readByte_insertCell _ _ _ _ (by rw [Memory.readByte_filter, if_pos rfl]), Memory.readByte_filter]
  split <;> rfl

/-! ### One word -/

/-- A read of one byte after a write of one word: the two bytes of the word change and no other. -/
theorem Memory.readByte_writeWord (m : Memory) (a k : Nat) (v : Word) :
    (m.writeWord a v).readByte k =
      if k = 2 * a + 1 then highByte v else if k = 2 * a then lowByte v else m.readByte k := by
  rw [Memory.writeWord, Memory.readByte_writeByte, Memory.readByte_writeByte]

theorem Memory.readByte_writeWord_other (m : Memory) (a k : Nat) (v : Word) (h : k / 2 ≠ a) :
    (m.writeWord a v).readByte k = m.readByte k := by
  rw [Memory.readByte_writeWord, if_neg (by omega), if_neg (by omega)]

@[simp] theorem Memory.readWord_writeWord_same (m : Memory) (a : Nat) (v : Word) : (m.writeWord a v).readWord a = v := by
  simp [Memory.readWord, Memory.readByte_writeWord]

theorem Memory.readWord_writeWord_other (m : Memory) (a b : Nat) (v : Word) (h : b ≠ a) :
    (m.writeWord a v).readWord b = m.readWord b := by
  rw [Memory.readWord, Memory.readByte_writeWord_other _ _ _ _ (by omega), Memory.readByte_writeWord_other _ _ _ _ (by omega), Memory.readWord]

@[simp] theorem State.readCell_writeCell_same (s : State) (a : Nat) (v : Word) : (s.writeCell a v).readCell a = v :=
  Memory.readWord_writeWord_same _ _ _

theorem State.readCell_writeCell_other (s : State) (a b : Nat) (v : Word) (h : b ≠ a) :
    (s.writeCell a v).readCell b = s.readCell b :=
  Memory.readWord_writeWord_other _ _ _ _ h

/-! ### The canonical form -/

theorem Memory.wf_nil : Memory.wf [] := ⟨List.Pairwise.nil, by simp⟩

theorem Memory.wf_cons (k : Nat) (b : Byte) (m : Memory) :
    Memory.wf ((k, b) :: m) ↔ ((∀ c ∈ m, k < c.1) ∧ k < 65536 ∧ b ≠ Memory.unlisted) ∧ m.wf := by
  simp only [Memory.wf, List.pairwise_cons, List.mem_cons, forall_eq_or_imp]
  tauto

theorem Memory.wf_consCell (k : Nat) (b : Byte) (m : Memory) (hm : m.wf) (hk : k < 65536) (hlt : ∀ c ∈ m, k < c.1) :
    (Memory.consCell k b m).wf := by
  unfold Memory.consCell
  split
  · exact hm
  · rename_i hb
    exact (Memory.wf_cons k b m).2 ⟨⟨hlt, hk, hb⟩, hm⟩

theorem Memory.mem_consCell {k : Nat} {b : Byte} {m : Memory} {c : Host.Cell} (h : c ∈ Memory.consCell k b m) :
    c.1 = k ∨ c ∈ m := by
  unfold Memory.consCell at h
  split at h
  · exact .inr h
  · rcases List.mem_cons.1 h with h | h
    · exact .inl (by rw [h])
    · exact .inr h

theorem Memory.mem_insertCell {k : Nat} {b : Byte} {m : Memory} {c : Host.Cell} (h : c ∈ Memory.insertCell m k b) :
    c.1 = k ∨ c ∈ m := by
  induction m with
  | nil => exact Memory.mem_consCell h
  | cons d m ih =>
    obtain ⟨j, e⟩ := d
    unfold Memory.insertCell at h
    split at h
    · rcases List.mem_cons.1 h with h | h
      · exact .inr (by simp [h])
      · exact (ih h).imp_right (List.mem_cons_of_mem _)
    · exact Memory.mem_consCell h

theorem Memory.wf_insertCell (k : Nat) (b : Byte) (m : Memory) (hm : m.wf) (hk : k < 65536) (hne : ∀ c ∈ m, c.1 ≠ k) :
    (Memory.insertCell m k b).wf := by
  induction m with
  | nil => exact Memory.wf_consCell k b [] hm hk (by simp)
  | cons d m ih =>
    obtain ⟨j, e⟩ := d
    have hj := (Memory.wf_cons j e m).1 hm
    have hjk : j ≠ k := hne (j, e) (by simp)
    unfold Memory.insertCell
    split
    · refine (Memory.wf_cons _ _ _).2 ⟨⟨fun c hc => ?_, hj.1.2⟩, ih hj.2 fun c hc => hne c (by simp [hc])⟩
      rcases Memory.mem_insertCell hc with h | h
      · omega
      · exact hj.1.1 c h
    · refine Memory.wf_consCell k b _ hm hk fun c hc => ?_
      rcases List.mem_cons.1 hc with h | h
      · subst h; simp; omega
      · have := hj.1.1 c h; omega

theorem Memory.wf_filter (m : Memory) (p : Host.Cell → Bool) (h : m.wf) : Memory.wf (m.filter p) :=
  ⟨h.1.filter p, fun c hc => h.2 c (List.mem_of_mem_filter hc)⟩

/-- A write of one byte keeps the canonical form. -/
theorem Memory.wf_writeByte (m : Memory) (k : Nat) (b : Byte) (h : m.wf) (hk : k < 65536) : (m.writeByte k b).wf :=
  Memory.wf_insertCell k b _ (Memory.wf_filter m _ h) hk fun c hc => by simpa using (List.mem_filter.1 hc).2

/-- A write of one word keeps the canonical form. -/
theorem Memory.wf_writeWord (m : Memory) (a : Nat) (v : Word) (h : m.wf) (ha : a < 32768) : (m.writeWord a v).wf :=
  Memory.wf_writeByte _ _ _ (Memory.wf_writeByte m _ _ h (by omega)) (by omega)

/-! ### The image (R58, R212) -/

theorem Memory.mem_ofBytes {bs : List Byte} {k : Nat} {c : Host.Cell} (h : c ∈ Memory.ofBytes k bs) :
    k ≤ c.1 ∧ c.1 < k + bs.length := by
  induction bs generalizing k with
  | nil => simp [Memory.ofBytes] at h
  | cons b bs ih =>
    rcases Memory.mem_consCell h with h | h
    · simp; omega
    · have := ih h; simp; omega

theorem Memory.readByte_of_notMem (m : Memory) (k : Nat) (h : ∀ c ∈ m, c.1 ≠ k) : m.readByte k = 0 := by
  induction m with
  | nil => rfl
  | cons c m ih =>
    rw [Memory.readByte, if_neg (h c (by simp))]
    exact ih fun d hd => h d (by simp [hd])

/-- Byte `j` of the image, and 0 beyond it. -/
theorem Memory.readByte_ofBytes (bs : List Byte) (k j : Nat) :
    (Memory.ofBytes k bs).readByte (k + j) = bs.getD j 0 := by
  induction bs generalizing k j with
  | nil => simp [Memory.ofBytes]
  | cons b bs ih =>
    rw [Memory.ofBytes, Memory.readByte_consCell]
    · cases j with
      | zero => simp
      | succ j =>
        rw [if_neg (by omega), show k + (j + 1) = k + 1 + j by omega, ih]
        simp
    · exact Memory.readByte_of_notMem _ _ fun c hc => by have := Memory.mem_ofBytes hc; omega

/-- Word `i` of a loaded image (R58): its two bytes, low first. -/
theorem Memory.readWord_ofBytes (bs : List Byte) (i : Nat) :
    ((Memory.ofBytes 0 bs).readWord i).toNat = (bs.getD (2 * i) 0).toNat + 256 * (bs.getD (2 * i + 1) 0).toNat := by
  have h0 := Memory.readByte_ofBytes bs 0 (2 * i)
  have h1 := Memory.readByte_ofBytes bs 0 (2 * i + 1)
  rw [Nat.zero_add] at h0 h1
  rw [Memory.readWord, wordOfBytes_toNat, h0, h1]

/-- A loaded image is in canonical form. -/
theorem Memory.wf_ofBytes (bs : List Byte) (k : Nat) (h : k + bs.length ≤ 65536) : (Memory.ofBytes k bs).wf := by
  induction bs generalizing k with
  | nil => exact Memory.wf_nil
  | cons b bs ih =>
    simp only [List.length_cons] at h
    exact Memory.wf_consCell k b _ (ih (k + 1) (by omega)) (by omega) fun c hc => by
      have := Memory.mem_ofBytes hc; omega

end Sys2Proof.Machine
end

