-- ==== Sys2Proof/Laws/Operands.lean ====
section
/-! SUPPORT. One spec lemma per operation on operands, the stack and memory words: everything it can do. -/

namespace Sys2Proof.Machine

/-! ### Arithmetic of `pc` and of reduced results -/

@[simp] theorem State.nextPc_eq (s : State) (n : Nat) : s.nextPc n = s.pc + BitVec.ofNat 16 (1 + n) := by
  rw [State.nextPc, BitVec.add_assoc, BitVec.ofNat_add]; rfl

@[simp] theorem reduced_toNat (n : Nat) : (reduced n).toNat = n % 32768 := by
  rw [reduced, BitVec.toNat_ofNat]; omega

@[simp] theorem isZero_iff (w : Word) : isZero w = true ↔ w.toNat = 0 := by
  simp [isZero, ← BitVec.toNat_inj]

theorem truthWord_toNat (b : Bool) : (truthWord b).toNat = if b then 1 else 0 := by cases b <;> rfl

/-! ### Target writes (R91) -/

@[simp] theorem State.readLoc_targetWrite (s : State) (a : Operand) (v : Word) :
    (s.targetWrite a v).readLoc (resolveTarget a) = v := by
  cases a <;> simp [State.targetWrite, resolveTarget, State.writeLoc, State.readLoc]

theorem State.readReg_targetWrite_other (s : State) (a : Operand) (v : Word) (r : Fin 8)
    (h : resolveTarget a ≠ .reg r) : (s.targetWrite a v).readReg r = s.readReg r := by
  cases a with
  | lit n => rfl
  | reg q => exact State.readReg_writeReg_other s v q r (by rintro rfl; exact h rfl)

theorem State.readByte_targetWrite_other (s : State) (a : Operand) (v : Word) (k : Nat)
    (h : resolveTarget a ≠ .cell (k / 2)) : (s.targetWrite a v).mem.readByte k = s.mem.readByte k := by
  cases a with
  | reg r => rfl
  | lit n => exact Memory.readByte_writeWord_other _ _ _ _ fun e => h (by rw [e]; rfl)

/-- A target write changes one register, or one cell below 32768, and nothing else. -/
theorem State.targetWrite_cases (s : State) (a : Operand) (v : Word) :
    (∃ r, resolveTarget a = .reg r ∧ s.targetWrite a v = s.writeReg r v) ∨
    (∃ c, c < 32768 ∧ resolveTarget a = .cell c ∧ s.targetWrite a v = s.writeCell c v) := by
  cases a with
  | reg r => exact .inl ⟨r, rfl, rfl⟩
  | lit n => exact .inr ⟨n.toNat, n.isLt, rfl, rfl⟩

/-- Everything the end of a target-writing handler does (R99, R102). -/
theorem writeResult_spec (a : Operand) (v : Word) (n : Nat) (s : State) :
    ∃ t, writeResult a v n s = .next t ∧ t.readLoc (resolveTarget a) = v ∧ t.pc = s.nextPc n ∧
      (∀ r, Location.reg r ∉ [resolveTarget a] → t.readReg r = s.readReg r) ∧
      (∀ k, Location.cell (k / 2) ∉ [resolveTarget a] → t.mem.readByte k = s.mem.readByte k) ∧
      t.psize = s.psize ∧ t.loaded = s.loaded ∧ t.run = s.run ∧ t.fault = s.fault ∧ t.trace = s.trace ∧
      t.config = s.config ∧ t.stack = s.stack ∧ t.out = s.out ∧ t.inp = s.inp := by
  refine ⟨_, rfl, ?_, ?_, fun r h => ?_, fun k h => ?_, ?_⟩
  · exact State.readLoc_targetWrite s a v
  · simp
  · exact State.readReg_targetWrite_other s a v r fun e => h (by simp [e])
  · exact State.readByte_targetWrite_other s a v k fun e => h (by simp [e])
  · simp

/-! ### Stack (R93, R94) -/

theorem State.stackFull_iff (s : State) :
    s.stackFull = true ↔ ∃ n, s.config.stackCapacity = some n ∧ n ≤ s.stack.length := by
  unfold State.stackFull
  split <;> simp_all

theorem State.push_ok (s : State) (v : Word) (h : s.stackFull = false) : s.push v = .ok (s.setStack (s.stack ++ [v])) := by
  simp [State.push, h]

theorem State.push_full (s : State) (v : Word) (h : s.stackFull = true) : s.push v = .error .allocationFailure := by
  simp [State.push, h]

theorem State.pop_nil (s : State) (h : s.stack = []) : s.pop = .error .stackUnderflow := by
  simp [State.pop, h]

theorem State.pop_concat (s : State) (st : List Word) (v : Word) (h : s.stack = st ++ [v]) :
    s.pop = .ok (v, s.setStack st) := by
  simp [State.pop, h]

/-- What `push` can do. -/
theorem State.push_cases (s : State) (v : Word) :
    (s.stackFull = true ∧ s.push v = .error .allocationFailure) ∨
    (s.stackFull = false ∧ s.push v = .ok (s.setStack (s.stack ++ [v]))) := by
  cases h : s.stackFull
  · exact .inr ⟨rfl, s.push_ok v h⟩
  · exact .inl ⟨rfl, s.push_full v h⟩

/-- What `pop` can do. -/
theorem State.pop_cases (s : State) :
    (s.stack = [] ∧ s.pop = .error .stackUnderflow) ∨
    (∃ st v, s.stack = st ++ [v] ∧ s.pop = .ok (v, s.setStack st)) := by
  rcases List.eq_nil_or_concat s.stack with h | ⟨st, v, h⟩
  · exact .inl ⟨h, s.pop_nil h⟩
  · rw [List.concat_eq_append] at h
    exact .inr ⟨st, v, h, s.pop_concat st v h⟩

/-! ### Memory words (R52, R53) -/

theorem State.memRead_cases (s : State) (addr : Word) :
    (addr.toNat < 32768 ∧ s.memRead addr = .ok (s.readCell addr.toNat)) ∨
    (32768 ≤ addr.toNat ∧ s.memRead addr = .error .memoryOutOfBounds) := by
  unfold State.memRead
  split
  · exact .inl ⟨‹_›, rfl⟩
  · exact .inr ⟨by omega, rfl⟩

theorem State.memWrite_cases (s : State) (addr v : Word) :
    (addr.toNat < 32768 ∧ s.memWrite addr v = .ok (s.writeCell addr.toNat v)) ∨
    (32768 ≤ addr.toNat ∧ s.memWrite addr v = .error .memoryOutOfBounds) := by
  unfold State.memWrite
  split
  · exact .inl ⟨‹_›, rfl⟩
  · exact .inr ⟨by omega, rfl⟩

end Sys2Proof.Machine
end

