-- ==== Sys2Proof/Laws/Exec.lean ====
section
/-! SUPPORT. What a handler can do, said once: it always answers a next state, which is either the faulted state
or one of the shape `Completed`. Invariants and frames follow from this, not from unfolding `exec`. -/

namespace Sys2Proof.Machine

/-- What a handler that raises no fault leaves: everything an instruction can write, and how. -/
structure Completed (i : Instr) (s t : State) : Prop where
  psize : t.psize = s.psize
  loaded : t.loaded = s.loaded
  fault : t.fault = s.fault
  trace : t.trace = s.trace
  config : t.config = s.config
  run : t.run = s.run ∨ (i = .halt ∧ t.run = .halted)
  mem : t.mem = s.mem ∨ ∃ a v, a < 32768 ∧ t.mem = s.mem.writeWord a v
  stack : t.stack = s.stack ∨ (∃ v, s.stackFull = false ∧ t.stack = s.stack ++ [v]) ∨ ∃ v, s.stack = t.stack ++ [v]
  out : t.out = s.out ∨ ∃ a, i = .out a ∧ t.out = s.out ++ [s.value a]
  inp : t.inp = s.inp ∨ ∃ a ch, i = .in_ a ∧ s.inp = ch :: t.inp

/-- A change of `pc` alone completes. -/
theorem completed_setPc (i : Instr) (s : State) (p : Word) : Completed i s (s.setPc p) :=
  ⟨rfl, rfl, rfl, rfl, rfl, .inl rfl, .inl rfl, .inl rfl, .inl rfl, .inl rfl⟩

/-- The memory after a target write: as before, or with one cell written. -/
theorem State.targetWrite_mem (s : State) (a : Operand) (v : Word) :
    (s.targetWrite a v).mem = s.mem ∨ ∃ c w, c < 32768 ∧ (s.targetWrite a v).mem = s.mem.writeWord c w := by
  rcases s.targetWrite_cases a v with ⟨r, _, e⟩ | ⟨c, hc, _, e⟩
  · exact .inl (by rw [e]; rfl)
  · exact .inr ⟨c, v, hc, by rw [e]; rfl⟩

/-- A target write completes. -/
theorem completed_writeResult {i : Instr} {a : Operand} {v : Word} {n : Nat} {s t : State}
    (h : writeResult a v n s = .next t) : Completed i s t := by
  cases h
  exact ⟨by simp, by simp, by simp, by simp, by simp, .inl (by simp), s.targetWrite_mem a v, .inl (by simp),
    .inl (by simp), .inl (by simp)⟩

/-- What each handler can do: its own fault (R199), taken precisely, or a completion. -/
theorem exec_cases {i : Instr} {s t : State} (h : exec i s = .next t) :
    (∃ r, handlerFault i = some r ∧ t = s.raise r) ∨ Completed i s t := by
  cases i with
  | halt => cases h; exact .inr ⟨rfl, rfl, rfl, rfl, rfl, .inr ⟨rfl, rfl⟩, .inl rfl, .inl rfl, .inl rfl, .inl rfl⟩
  | nop => cases h; exact .inr (completed_setPc _ _ _)
  | set a b => exact .inr (completed_writeResult h)
  | eq a b c => exact .inr (completed_writeResult h)
  | gt a b c => exact .inr (completed_writeResult h)
  | add a b c => exact .inr (completed_writeResult h)
  | mult a b c => exact .inr (completed_writeResult h)
  | and a b c => exact .inr (completed_writeResult h)
  | or a b c => exact .inr (completed_writeResult h)
  | not a b => exact .inr (completed_writeResult h)
  | jmp a => cases h; exact .inr (completed_setPc _ _ _)
  | jt a b => cases h; right; split <;> exact completed_setPc _ _ _
  | jf a b => cases h; right; split <;> exact completed_setPc _ _ _
  | mod a b c =>
    simp only [exec, execMod] at h
    split at h
    · cases h; exact .inl ⟨_, rfl, rfl⟩
    · exact .inr (completed_writeResult h)
  | push a =>
    rcases s.push_cases (s.value a) with ⟨_, e⟩ | ⟨hf, e⟩ <;> simp only [exec, execPush, e] at h <;> cases h
    · exact .inl ⟨_, rfl, rfl⟩
    · exact .inr ⟨rfl, rfl, rfl, rfl, rfl, .inl rfl, .inl rfl, .inr (.inl ⟨_, hf, rfl⟩), .inl rfl, .inl rfl⟩
  | call a =>
    rcases s.push_cases (s.nextPc 1) with ⟨_, e⟩ | ⟨hf, e⟩ <;> simp only [exec, execCall, e] at h <;> cases h
    · exact .inl ⟨_, rfl, rfl⟩
    · exact .inr ⟨rfl, rfl, rfl, rfl, rfl, .inl rfl, .inl rfl, .inr (.inl ⟨_, hf, rfl⟩), .inl rfl, .inl rfl⟩
  | pop a =>
    rcases s.pop_cases with ⟨_, e⟩ | ⟨st, v, hs, e⟩ <;> simp only [exec, execPop, e] at h <;> cases h
    · exact .inl ⟨_, rfl, rfl⟩
    · refine .inr ⟨by simp, by simp, by simp, by simp, by simp, .inl (by simp), ?_, .inr (.inr ⟨v, by simpa using hs⟩),
        .inl (by simp), .inl (by simp)⟩
      exact (s.setStack st).targetWrite_mem a v
  | ret =>
    rcases s.pop_cases with ⟨_, e⟩ | ⟨st, v, hs, e⟩ <;> simp only [exec, execRet, e] at h <;> cases h
    · exact .inl ⟨_, rfl, rfl⟩
    · exact .inr ⟨rfl, rfl, rfl, rfl, rfl, .inl rfl, .inl rfl, .inr (.inr ⟨v, hs⟩), .inl rfl, .inl rfl⟩
  | rmem a b =>
    rcases s.memRead_cases (s.value b) with ⟨_, e⟩ | ⟨_, e⟩ <;> simp only [exec, execRmem, e] at h
    · exact .inr (completed_writeResult h)
    · cases h; exact .inl ⟨_, rfl, rfl⟩
  | wmem a b =>
    rcases s.memWrite_cases (s.value a) (s.value b) with ⟨hlt, e⟩ | ⟨_, e⟩ <;> simp only [exec, execWmem, e] at h <;> cases h
    · exact .inr ⟨rfl, rfl, rfl, rfl, rfl, .inl rfl, .inr ⟨_, _, hlt, rfl⟩, .inl rfl, .inl rfl, .inl rfl⟩
    · exact .inl ⟨_, rfl, rfl⟩
  | out a => cases h; exact .inr ⟨rfl, rfl, rfl, rfl, rfl, .inl rfl, .inl rfl, .inl rfl, .inr ⟨a, rfl, rfl⟩, .inl rfl⟩
  | in_ a =>
    simp only [exec, execIn] at h
    split at h
    · cases h; exact .inr ⟨rfl, rfl, rfl, rfl, rfl, .inl rfl, .inl rfl, .inl rfl, .inl rfl, .inl rfl⟩
    · rename_i ch rest hi
      cases h
      refine .inr ⟨by simp, by simp, by simp, by simp, by simp, .inl (by simp), ?_, .inl (by simp),
        .inl (by simp), .inr ⟨a, ch, rfl, by simpa using hi⟩⟩
      exact (s.setInp rest).targetWrite_mem a _

/-- A handler never faults or refuses: the faults of the hardware are next states. -/
theorem exec_isNext (i : Instr) (s : State) : ∃ t, exec i s = .next t := by
  cases i <;> simp only [exec, execHalt, execNop, execSet, execPush, execPop, execEq, execGt, execJmp, execJt, execJf,
    execCall, execRet, execAdd, execMult, execMod, execAnd, execOr, execNot, execRmem, execWmem, execOut, execIn,
    writeResult, takeFault] <;> (try split) <;> exact ⟨_, rfl⟩

end Sys2Proof.Machine
end

