-- ==== Sys2Proof/Laws/Lifecycle.lean ====
section
/-! SUPPORT. What a host operation can do, said once, and the canonical form of memory through every operation that
writes it. -/

namespace Sys2Proof.Machine

/-- What an answered load can be (R211, R212): one of the two errors, or a success. -/
theorem load_cases {bytes : List Byte} {s t : State} {r : LoadResult} (h : load bytes s = .next (r, t)) :
    (s.run ≠ .released ∧ s.loaded = true ∧ r = .error .alreadyLoaded ∧ t = s.rejectLoad .alreadyLoaded) ∨
    (s.run = .idle ∧ s.loaded = false ∧ r = .error .sizeExceeded ∧ t = s.rejectLoad .sizeExceeded) ∨
    (s.run = .idle ∧ s.loaded = false ∧ bytes.length ≤ 65536 ∧ bytes.length % 2 = 0 ∧ r = .success ∧
      t = s.loadImage bytes) := by
  unfold load at h
  split at h
  · cases h
  split at h
  · cases h; exact .inl ⟨‹_›, ‹_›, rfl, rfl⟩
  split at h
  · cases h
  split at h
  · cases h
  split at h
  · cases h; exact .inr (.inl (by simp_all))
  · cases h; exact .inr (.inr ⟨by simp_all, by simp_all, by omega, by omega, rfl, rfl⟩)

/-- An answered load move is an answered load in IDLE (R218). -/
theorem hostLoad_cases {bytes : List Byte} {s t : State} (h : hostLoad bytes s = .next t) :
    s.run = .idle ∧ ∃ r, load bytes s = .next (r, t) := by
  unfold hostLoad at h
  split at h
  · refine ⟨‹_›, ?_⟩
    cases hl : load bytes s <;> rw [hl] at h <;> cases h
    exact ⟨_, rfl⟩
  all_goals cases h

/-- What an answered host move can be (R218): a rejected load and a load, both in IDLE, the start of a run, a
supplied byte, or the release of an ended run. -/
theorem hostMove_cases {m : HostMove} {s t : State} (h : hostMove m s = .next t) :
    (∃ b e, m = .load b ∧ s.run = .idle ∧ load b s = .next (.error e, t) ∧ t = s.rejectLoad e) ∨
    (∃ b, m = .load b ∧ s.run = .idle ∧ s.loaded = false ∧ b.length ≤ 65536 ∧ b.length % 2 = 0 ∧
      load b s = .next (.success, t) ∧ t = s.loadImage b) ∨
    (m = .execute ∧ s.run = .idle ∧ s.loaded = true ∧ t = s.setRun .running) ∨
    (∃ b, m = .supply b ∧ s.run ≠ .released ∧ t = s.setInp (s.inp ++ [b])) ∨
    (m = .free ∧ (s.run = .halted ∨ s.run = .exhausted ∨ s.run = .faulted) ∧ t = s.setRun .released) := by
  cases m with
  | load b =>
    obtain ⟨hi, r, hl⟩ := hostLoad_cases h
    rcases load_cases hl with ⟨_, _, rfl, h4⟩ | ⟨_, _, rfl, h4⟩ | ⟨_, h2, h3, h4, rfl, h6⟩
    · exact .inl ⟨b, _, rfl, hi, hl, h4⟩
    · exact .inl ⟨b, _, rfl, hi, hl, h4⟩
    · exact .inr (.inl ⟨b, rfl, hi, h2, h3, h4, hl, h6⟩)
  | execute =>
    simp only [hostMove, execute] at h
    split at h
    · split at h <;> cases h; simp_all
    all_goals cases h
  | supply b =>
    simp only [hostMove, supplyInput] at h
    split at h <;> cases h; simp_all
  | free =>
    simp only [hostMove, free] at h
    split at h <;> cases h <;> simp_all

/-! ### Every operation that writes memory keeps its canonical form -/

theorem State.wf_writeCell (s : State) (a : Nat) (v : Word) (h : s.mem.wf) (ha : a < 32768) : (s.writeCell a v).mem.wf :=
  Memory.wf_writeWord _ _ _ h ha

theorem State.wf_targetWrite (s : State) (a : Operand) (v : Word) (h : s.mem.wf) : (s.targetWrite a v).mem.wf := by
  cases a with
  | reg r => exact h
  | lit n => exact s.wf_writeCell n.toNat v h n.isLt

theorem State.wf_placeWords (s : State) (a : Nat) (ws : List Word) (h : s.mem.wf) : (s.placeWords a ws).mem.wf := by
  induction ws generalizing s a with
  | nil => exact h
  | cons w ws ih =>
    unfold State.placeWords
    split
    · exact ih _ _ (s.wf_writeCell a w h ‹_›)
    · exact h

theorem State.wf_loadImage (s : State) (bytes : List Byte) (h : bytes.length ≤ 65536) : (s.loadImage bytes).mem.wf :=
  Memory.wf_ofBytes bytes 0 (by omega)

theorem State.wf_reset : State.reset.mem.wf := Memory.wf_nil

end Sys2Proof.Machine
end

