-- ==== Sys2Proof/Laws/PerInstr.lean ====
section
/-! SUPPORT. What holds of every instruction as syntax, one lemma per constructor: its encoding passes the checks of
30_encoding.md (R70 to R79), and is one opcode word and its arity of operand words. -/

/-- The encoding of `i` is well-formed, and its length is one more than its opcode's arity (R70, R75). -/
def Sys2Proof.Laws.EncodingWellFormed.Statement (i : Sys2Proof.Instr) : Prop :=
  i.wellFormed = true ∧ (Sys2Proof.encode i).length = 1 + Sys2Proof.arityOf i.opcode

open Sys2Proof

theorem Sys2Proof.Laws.EncodingWellFormed.halt : Sys2Proof.Laws.EncodingWellFormed.Statement .halt := by
  constructor <;> simp [Instr.wellFormed, wellFormedWords, encode, Instr.opcodeWord, Instr.opcode, Instr.operandWords, Instr.operands, legalOpcode, arityOf]

theorem Sys2Proof.Laws.EncodingWellFormed.set (a b : Operand) : Sys2Proof.Laws.EncodingWellFormed.Statement (.set a b) := by
  constructor <;> simp [Instr.wellFormed, wellFormedWords, encode, Instr.opcodeWord, Instr.opcode, Instr.operandWords, Instr.operands, legalOpcode, arityOf]

theorem Sys2Proof.Laws.EncodingWellFormed.push (a : Operand) : Sys2Proof.Laws.EncodingWellFormed.Statement (.push a) := by
  constructor <;> simp [Instr.wellFormed, wellFormedWords, encode, Instr.opcodeWord, Instr.opcode, Instr.operandWords, Instr.operands, legalOpcode, arityOf]

theorem Sys2Proof.Laws.EncodingWellFormed.pop (a : Operand) : Sys2Proof.Laws.EncodingWellFormed.Statement (.pop a) := by
  constructor <;> simp [Instr.wellFormed, wellFormedWords, encode, Instr.opcodeWord, Instr.opcode, Instr.operandWords, Instr.operands, legalOpcode, arityOf]

theorem Sys2Proof.Laws.EncodingWellFormed.eq (a b c : Operand) : Sys2Proof.Laws.EncodingWellFormed.Statement (.eq a b c) := by
  constructor <;> simp [Instr.wellFormed, wellFormedWords, encode, Instr.opcodeWord, Instr.opcode, Instr.operandWords, Instr.operands, legalOpcode, arityOf]

theorem Sys2Proof.Laws.EncodingWellFormed.gt (a b c : Operand) : Sys2Proof.Laws.EncodingWellFormed.Statement (.gt a b c) := by
  constructor <;> simp [Instr.wellFormed, wellFormedWords, encode, Instr.opcodeWord, Instr.opcode, Instr.operandWords, Instr.operands, legalOpcode, arityOf]

theorem Sys2Proof.Laws.EncodingWellFormed.jmp (a : Operand) : Sys2Proof.Laws.EncodingWellFormed.Statement (.jmp a) := by
  constructor <;> simp [Instr.wellFormed, wellFormedWords, encode, Instr.opcodeWord, Instr.opcode, Instr.operandWords, Instr.operands, legalOpcode, arityOf]

theorem Sys2Proof.Laws.EncodingWellFormed.jt (a b : Operand) : Sys2Proof.Laws.EncodingWellFormed.Statement (.jt a b) := by
  constructor <;> simp [Instr.wellFormed, wellFormedWords, encode, Instr.opcodeWord, Instr.opcode, Instr.operandWords, Instr.operands, legalOpcode, arityOf]

theorem Sys2Proof.Laws.EncodingWellFormed.jf (a b : Operand) : Sys2Proof.Laws.EncodingWellFormed.Statement (.jf a b) := by
  constructor <;> simp [Instr.wellFormed, wellFormedWords, encode, Instr.opcodeWord, Instr.opcode, Instr.operandWords, Instr.operands, legalOpcode, arityOf]

theorem Sys2Proof.Laws.EncodingWellFormed.add (a b c : Operand) : Sys2Proof.Laws.EncodingWellFormed.Statement (.add a b c) := by
  constructor <;> simp [Instr.wellFormed, wellFormedWords, encode, Instr.opcodeWord, Instr.opcode, Instr.operandWords, Instr.operands, legalOpcode, arityOf]

theorem Sys2Proof.Laws.EncodingWellFormed.mult (a b c : Operand) : Sys2Proof.Laws.EncodingWellFormed.Statement (.mult a b c) := by
  constructor <;> simp [Instr.wellFormed, wellFormedWords, encode, Instr.opcodeWord, Instr.opcode, Instr.operandWords, Instr.operands, legalOpcode, arityOf]

theorem Sys2Proof.Laws.EncodingWellFormed.mod (a b c : Operand) : Sys2Proof.Laws.EncodingWellFormed.Statement (.mod a b c) := by
  constructor <;> simp [Instr.wellFormed, wellFormedWords, encode, Instr.opcodeWord, Instr.opcode, Instr.operandWords, Instr.operands, legalOpcode, arityOf]

theorem Sys2Proof.Laws.EncodingWellFormed.and (a b c : Operand) : Sys2Proof.Laws.EncodingWellFormed.Statement (.and a b c) := by
  constructor <;> simp [Instr.wellFormed, wellFormedWords, encode, Instr.opcodeWord, Instr.opcode, Instr.operandWords, Instr.operands, legalOpcode, arityOf]

theorem Sys2Proof.Laws.EncodingWellFormed.or (a b c : Operand) : Sys2Proof.Laws.EncodingWellFormed.Statement (.or a b c) := by
  constructor <;> simp [Instr.wellFormed, wellFormedWords, encode, Instr.opcodeWord, Instr.opcode, Instr.operandWords, Instr.operands, legalOpcode, arityOf]

theorem Sys2Proof.Laws.EncodingWellFormed.not (a b : Operand) : Sys2Proof.Laws.EncodingWellFormed.Statement (.not a b) := by
  constructor <;> simp [Instr.wellFormed, wellFormedWords, encode, Instr.opcodeWord, Instr.opcode, Instr.operandWords, Instr.operands, legalOpcode, arityOf]

theorem Sys2Proof.Laws.EncodingWellFormed.rmem (a b : Operand) : Sys2Proof.Laws.EncodingWellFormed.Statement (.rmem a b) := by
  constructor <;> simp [Instr.wellFormed, wellFormedWords, encode, Instr.opcodeWord, Instr.opcode, Instr.operandWords, Instr.operands, legalOpcode, arityOf]

theorem Sys2Proof.Laws.EncodingWellFormed.wmem (a b : Operand) : Sys2Proof.Laws.EncodingWellFormed.Statement (.wmem a b) := by
  constructor <;> simp [Instr.wellFormed, wellFormedWords, encode, Instr.opcodeWord, Instr.opcode, Instr.operandWords, Instr.operands, legalOpcode, arityOf]

theorem Sys2Proof.Laws.EncodingWellFormed.call (a : Operand) : Sys2Proof.Laws.EncodingWellFormed.Statement (.call a) := by
  constructor <;> simp [Instr.wellFormed, wellFormedWords, encode, Instr.opcodeWord, Instr.opcode, Instr.operandWords, Instr.operands, legalOpcode, arityOf]

theorem Sys2Proof.Laws.EncodingWellFormed.ret : Sys2Proof.Laws.EncodingWellFormed.Statement .ret := by
  constructor <;> simp [Instr.wellFormed, wellFormedWords, encode, Instr.opcodeWord, Instr.opcode, Instr.operandWords, Instr.operands, legalOpcode, arityOf]

theorem Sys2Proof.Laws.EncodingWellFormed.out (a : Operand) : Sys2Proof.Laws.EncodingWellFormed.Statement (.out a) := by
  constructor <;> simp [Instr.wellFormed, wellFormedWords, encode, Instr.opcodeWord, Instr.opcode, Instr.operandWords, Instr.operands, legalOpcode, arityOf]

theorem Sys2Proof.Laws.EncodingWellFormed.in_ (a : Operand) : Sys2Proof.Laws.EncodingWellFormed.Statement (.in_ a) := by
  constructor <;> simp [Instr.wellFormed, wellFormedWords, encode, Instr.opcodeWord, Instr.opcode, Instr.operandWords, Instr.operands, legalOpcode, arityOf]

theorem Sys2Proof.Laws.EncodingWellFormed.nop : Sys2Proof.Laws.EncodingWellFormed.Statement .nop := by
  constructor <;> simp [Instr.wellFormed, wellFormedWords, encode, Instr.opcodeWord, Instr.opcode, Instr.operandWords, Instr.operands, legalOpcode, arityOf]
end

