-- ==== Sys2Proof/Laws/Step.lean ====
section
/-! SUPPORT. What a step of the engine can do, and what the fetch reads. -/

namespace Sys2Proof.Machine

/-- What a step can do: rest, stop by exhaustion, take a decode fault, or run the fetched handler. -/
theorem step_cases {s t : State} (h : step s = .next t) :
    (s.run ≠ .running ∧ s.run ≠ .released ∧ t = s) ∨
    (s.run = .running ∧ s.psize.val ≤ s.pc.toNat ∧ t = s.setRun .exhausted) ∨
    (s.run = .running ∧ s.pc.toNat < s.psize.val ∧ ∃ r, s.fetch = .error r ∧ t = s.raise r) ∨
    (s.run = .running ∧ s.pc.toNat < s.psize.val ∧ ∃ i, s.fetch = .ok i ∧ exec i s = .next t) := by
  unfold step at h
  split at h
  · rename_i hr
    unfold cycle at h
    split at h
    · cases h; exact .inr (.inl ⟨hr, ‹_›, rfl⟩)
    · split at h
      · cases h; exact .inr (.inr (.inl ⟨hr, by omega, _, ‹_›, rfl⟩))
      · exact .inr (.inr (.inr ⟨hr, by omega, _, ‹_›, h⟩))
  all_goals first | (cases h; simp_all) | cases h

/-- The step of a fetching engine, by what the fetch gives. -/
theorem step_of_fetch_ok {s : State} {i : Instr} (hs : s.fetching) (h : s.fetch = .ok i) : step s = exec i s := by
  simp [step, hs.1, cycle, Nat.not_le.2 hs.2, h]

theorem step_of_fetch_error {s : State} {r : Fault} (hs : s.fetching) (h : s.fetch = .error r) :
    step s = .next (s.raise r) := by
  simp [step, hs.1, cycle, Nat.not_le.2 hs.2, h, takeFault]

theorem step_of_exhausted {s : State} (hr : s.run = .running) (h : s.psize.val ≤ s.pc.toNat) :
    step s = .next (s.setRun .exhausted) := by
  simp [step, hr, cycle, h]

/-- The words a fetch reads (R98): as many as lie below PSIZE, each the cell it stands in. -/
theorem State.wordsFrom_zero (s : State) (a : Nat) : s.wordsFrom a 0 = [] := rfl

theorem State.wordsFrom_inside (s : State) (a n : Nat) (h : a < s.psize.val) :
    s.wordsFrom a (n + 1) = s.readCell a :: s.wordsFrom (a + 1) n := by
  simp [State.wordsFrom, h]

theorem State.wordsFrom_outside (s : State) (a n : Nat) (h : s.psize.val ≤ a) : s.wordsFrom a n = [] := by
  cases n <;> simp [State.wordsFrom, h]

/-- The fault of a decode error is one of the three decode faults (R180). -/
theorem decodeFault_inj {d e : DecodeError} (h : decodeFault d = decodeFault e) : d = e := by
  cases d <;> cases e <;> first | rfl | cases h

end Sys2Proof.Machine
end

