-- ==== Sys2Proof/Tests/Slice0.lean ====
section
/-! SUPPORT. The model's own tests. Expected results come from spec/: the encodings of 30_encoding.md, the vectors of
95_test_vectors.md (V, L and S numbers below) and the examples of the instruction rules. Part 3 holds a witness
for the hypotheses of each statement that has some. -/

namespace Sys2Proof.Tests
open Sys2Proof Sys2Proof.Machine

/-- An image's bytes, low byte first (20_memory.md R58). -/
def bytesOf (ws : List Nat) : List Byte := ws.flatMap fun w => [BitVec.ofNat 8 (w % 256), BitVec.ofNat 8 (w / 256)]

/-- The launch state of 10_state.md R38 with the image `ws`, executing. -/
def running (ws : List Nat) : State := (State.reset.loadImage (bytesOf ws)).setRun .running

/-- The next state of an outcome, if it has one. -/
def nextOf : Host.Outcome State Fault Refusal → Option State
  | .next t => some t
  | _ => none

/-- One step, and what `f` sees of the state after it. -/
def after {α : Type} (s : State) (f : State → α) : Option α := (nextOf (step s)).map f

/-- How the step leaves the run, the fault and `pc`. -/
def ending (t : State) : RunState × Option Fault × Nat := (t.run, t.fault, t.pc.toNat)

/-- `s` with a stack capacity. -/
def capped (n : Nat) (s : State) : State := { s with config := ⟨some n⟩ }

/-! ### 1. Well-formedness and decoding (30_encoding.md) -/

/-- R70 to R79: each check refuses a word sequence that breaks it alone: no opcode word, an unknown opcode, too few
operand words, too many, an illegal operand word. -/
theorem test_wellFormed_refuses :
    wellFormedWords [] = false ∧ wellFormedWords [22] = false ∧ wellFormedWords [1, 32768] = false ∧
    wellFormedWords [0, 5] = false ∧ wellFormedWords [2, 32776] = false := by decide

theorem test_wellFormed_accepts :
    wellFormedWords [0] = true ∧ wellFormedWords [1, 32768, 2] = true ∧ wellFormedWords [9, 32767, 32775, 0] = true := by decide

/-- Words written out by the bit patterns of R71 and R72, one per constructor, by family (R74). -/
theorem test_decode_system_move :
    decode 0b0000000000000000#16 [] = .ok (.halt, []) ∧
    decode 0b0000000000010101#16 [] = .ok (.nop, []) ∧
    decode 0b0000000000000001#16 [0b1000000000000001#16, 0b1000000000000010#16] = .ok (.set (.reg 1) (.reg 2), []) ∧
    decode 0b0000000000000010#16 [0b0000000000000111#16] = .ok (.push (.lit 7), []) ∧
    decode 0b0000000000000011#16 [0b1000000000000101#16] = .ok (.pop (.reg 5), []) := by decide

theorem test_decode_compare_control :
    decode 0b0000000000000100#16 [0b1000000000000011#16, 0b1000000000000010#16, 0b0000000001000001#16] = .ok (.eq (.reg 3) (.reg 2) (.lit 65), []) ∧
    decode 0b0000000000000101#16 [0b1000000000000000#16, 0b0000000000000101#16, 0b0000000000000011#16] = .ok (.gt (.reg 0) (.lit 5) (.lit 3), []) ∧
    decode 0b0000000000000110#16 [0b0000000000001001#16] = .ok (.jmp (.lit 9), []) ∧
    decode 0b0000000000000111#16 [0b1000000000000000#16, 0b0000000000000011#16] = .ok (.jt (.reg 0) (.lit 3), []) ∧
    decode 0b0000000000001000#16 [0b1000000000000011#16, 0b0000000000001111#16] = .ok (.jf (.reg 3) (.lit 15), []) ∧
    decode 0b0000000000010001#16 [0b0000000000001001#16] = .ok (.call (.lit 9), []) ∧
    decode 0b0000000000010010#16 [] = .ok (.ret, []) := by decide

theorem test_decode_alu :
    decode 0b0000000000001001#16 [0b1000000000000000#16, 0b1000000000000001#16, 0b0000000000000001#16] = .ok (.add (.reg 0) (.reg 1) (.lit 1), []) ∧
    decode 0b0000000000001010#16 [0b1000000000000000#16, 0b0000000100101100#16, 0b1000000000000110#16] = .ok (.mult (.reg 0) (.lit 300) (.reg 6), []) ∧
    decode 0b0000000000001011#16 [0b1000000000000000#16, 0b0000000000010001#16, 0b0000000000000101#16] = .ok (.mod (.reg 0) (.lit 17) (.lit 5), []) ∧
    decode 0b0000000000001100#16 [0b1000000000000000#16, 0b0000000000001100#16, 0b0000000000001010#16] = .ok (.and (.reg 0) (.lit 12) (.lit 10), []) ∧
    decode 0b0000000000001101#16 [0b0111111111111111#16, 0b0000000000001100#16, 0b0000000000001010#16] = .ok (.or (.lit 32767) (.lit 12) (.lit 10), []) ∧
    decode 0b0000000000001110#16 [0b1000000000000000#16, 0b0101010101010101#16] = .ok (.not (.reg 0) (.lit 21845), []) := by decide

theorem test_decode_memory_io :
    decode 0b0000000000001111#16 [0b1000000000000010#16, 0b0000000000000100#16] = .ok (.rmem (.reg 2) (.lit 4), []) ∧
    decode 0b0000000000010000#16 [0b0111010100110000#16, 0b1000000000000000#16] = .ok (.wmem (.lit 30000) (.reg 0), []) ∧
    decode 0b0000000000010011#16 [0b0000000001000001#16] = .ok (.out (.lit 65), []) ∧
    decode 0b0000000000010100#16 [0b1000000000000111#16, 0b0000000000000000#16] = .ok (.in_ (.reg 7), [0]) := by decide

/-- R71, R77: 22 and a register-reference word are no opcodes; R78, R79: the defect met first is named (D8). -/
theorem test_decode_rejects_by_name :
    decode 22 [] = .error .unknownOpcode ∧ decode 32768 [0, 0, 0] = .error .unknownOpcode ∧
    decode 1 [40000] = .error .operandOverflow ∧ decode 4 [32768, 40000] = .error .operandOverflow ∧
    decode 19 [] = .error .operandCountMismatch ∧ decode 1 [32768] = .error .operandCountMismatch := by decide

/-- The table's numbering: bit 0 is the least significant bit of the first word. -/
theorem test_decodeTableWord :
    decodeTableWord 16 20 = some (.in_ (.lit 0)) ∧ decodeTableWord 48 0x000280000001 = some (.set (.reg 0) (.lit 2)) ∧
    decodeTableWord 16 22 = none := by decide

/-- The instruction of the table's number is the next to run. -/
theorem test_withFetchWord :
    (State.reset.withFetchWord 48 0x000280000001).fetch = .ok (.set (.reg 0) (.lit 2)) ∧
    after (State.reset.withFetchWord 16 0) ending = some (.halted, none, 1) := by decide

/-! ### 2. One step (95_test_vectors.md) -/

/-- V2, V5, V7, V8. -/
theorem test_decode_faults :
    after (running [22]) ending = some (.faulted, some .unknownOpcode, 0) ∧
    after (running [2, 32776]) ending = some (.faulted, some .operandOverflow, 0) ∧
    after (running [1, 32768]) ending = some (.faulted, some .operandCountMismatch, 0) ∧
    after (running [1, 40000]) ending = some (.faulted, some .operandOverflow, 0) := by decide

/-- V1 and the last step of V35. -/
theorem test_exhausted :
    after (running []) ending = some (.exhausted, none, 0) ∧
    after ((running [6, 32768]).setPc 65535) ending = some (.exhausted, none, 65535) := by decide

/-- V13. -/
theorem test_halt : after (running [0]) ending = some (.halted, none, 1) := by decide
/-- V14, first step. -/
theorem test_nop : after (running [21, 21, 0]) ending = some (.running, none, 1) := by decide
/-- V16. -/
theorem test_set_register : after (running [1, 32768, 2]) (fun t => (t.readReg 0, t.pc)) = some (2, 3) := by decide
/-- V17: a literal target, and a word that is not reduced. -/
theorem test_set_cell :
    after ((running [1, 100, 32769]).writeReg 1 40000) (fun t => (t.readCell 100, t.readReg 1)) = some (40000, 40000) := by decide
/-- V20. -/
theorem test_push : after ((running [2, 32768]).writeReg 0 7) (fun t => (t.stack, t.pc)) = some ([7], 2) := by decide
/-- V21. -/
theorem test_push_full :
    after (capped 2 ((running [2, 5]).setStack [1, 2])) (fun t => (ending t, t.stack)) =
      some ((.faulted, some .allocationFailure, 0), [1, 2]) := by decide
/-- V22. -/
theorem test_pop :
    after ((running [3, 32769]).setStack [5, 9]) (fun t => (t.readReg 1, t.stack, t.pc)) = some (9, [5], 2) := by decide
/-- V23. -/
theorem test_pop_empty :
    after (running [3, 32769]) (fun t => (ending t, t.readReg 1)) = some ((.faulted, some .stackUnderflow, 0), 0) := by decide
/-- V27. -/
theorem test_eq :
    after ((running [4, 32771, 32770, 65]).writeReg 2 65) (fun t => (t.readReg 3, t.pc)) = some (1, 4) := by decide
/-- V29: all 16 bits are compared. -/
theorem test_eq_all_bits :
    after (((running [4, 32768, 32769, 0]).writeReg 0 9).writeReg 1 32768) (fun t => t.readReg 0) = some 0 := by decide
/-- V32. -/
theorem test_gt_equal : after ((running [5, 32768, 4, 4]).writeReg 0 9) (fun t => t.readReg 0) = some 0 := by decide
/-- V33: unsigned, 16 bits. -/
theorem test_gt_unsigned :
    after ((running [5, 32768, 32769, 32767]).writeReg 1 40000) (fun t => (t.readReg 0, t.pc)) = some (1, 4) := by decide
/-- V34 and V35, first step. -/
theorem test_jmp :
    after (running [6, 9]) ending = some (.running, none, 9) ∧
    after ((running [6, 32768]).writeReg 0 65535) ending = some (.running, none, 65535) := by decide
/-- V36 and V37, first step. -/
theorem test_jt :
    after ((running [7, 32768, 5, 19, 66, 0]).writeReg 0 2) ending = some (.running, none, 5) ∧
    after (running [7, 32768, 5, 19, 66, 0]) ending = some (.running, none, 3) := by decide
/-- V38 and V39, first step. -/
theorem test_jf :
    after (running [8, 32768, 5, 19, 66, 0]) ending = some (.running, none, 5) ∧
    after ((running [8, 32768, 5, 19, 66, 0]).writeReg 0 1) ending = some (.running, none, 3) := by decide
/-- V41, the CALL. -/
theorem test_call :
    after ((running [21, 21, 21, 17, 9]).setPc 3) (fun t => (t.stack, t.pc)) = some ([5], 9) := by decide
/-- V42. -/
theorem test_call_full :
    after (capped 0 (running [17, 9])) (fun t => (ending t, t.stack)) =
      some ((.faulted, some .allocationFailure, 0), []) := by decide
/-- V43. -/
theorem test_ret : after ((running [18]).setStack [5]) (fun t => (t.stack, t.pc)) = some ([], 5) := by decide
/-- V44. -/
theorem test_ret_empty : after (running [18]) ending = some (.faulted, some .stackUnderflow, 0) := by decide
/-- V52: the target is also both sources. -/
theorem test_add_wraps :
    after ((running [9, 32768, 32768, 32768]).writeReg 0 20000) (fun t => (t.readReg 0, t.pc)) = some (7232, 4) := by decide
/-- V50: a literal target. -/
theorem test_add_cell : after (running [9, 100, 2, 3]) (fun t => t.readCell 100) = some 5 := by decide
/-- V53. -/
theorem test_mult : after (running [10, 32768, 32767, 32767]) (fun t => (t.readReg 0, t.pc)) = some (1, 4) := by decide
/-- V57. -/
theorem test_mult_large : after ((running [10, 32768, 32769, 32769]).writeReg 1 65535) (fun t => t.readReg 0) = some 1 := by decide
/-- V61. -/
theorem test_mod_zero :
    after ((running [11, 32768, 5, 0]).writeReg 0 9) (fun t => (ending t, t.readReg 0)) =
      some ((.faulted, some .divisionByZero, 0), 9) := by decide
/-- V64: reduced after the remainder (conflict C2). -/
theorem test_mod_reduced :
    after (((running [11, 32768, 32769, 32770]).writeReg 1 40000).writeReg 2 50000) (fun t => (t.readReg 0, t.pc)) =
      some (7232, 4) := by decide
/-- V67. -/
theorem test_and_reduced :
    after (((running [12, 32768, 32769, 32770]).writeReg 1 40000).writeReg 2 65535) (fun t => (t.readReg 0, t.pc)) =
      some (7232, 4) := by decide
/-- V66. -/
theorem test_and : after (running [12, 32768, 12, 10]) (fun t => t.readReg 0) = some 8 := by decide
/-- V68. -/
theorem test_or : after (running [13, 32768, 12, 10]) (fun t => (t.readReg 0, t.pc)) = some (14, 4) := by decide
/-- V69. -/
theorem test_or_reduced : after ((running [13, 32768, 32769, 1]).writeReg 1 32768) (fun t => t.readReg 0) = some 1 := by decide
/-- V72. -/
theorem test_not : after (running [14, 32768, 21845]) (fun t => (t.readReg 0, t.pc)) = some (10922, 3) := by decide
/-- V73. -/
theorem test_not_large : after ((running [14, 32768, 32769]).writeReg 1 40000) (fun t => t.readReg 0) = some 25535 := by decide
/-- V75: the address is read before the target is written. -/
theorem test_rmem :
    after ((running [15, 32768, 32768, 0, 777]).writeReg 0 4) (fun t => (t.readReg 0, t.pc)) = some (777, 3) := by decide
/-- V76. -/
theorem test_rmem_out_of_bounds :
    after (((running [15, 32768, 32769]).writeReg 0 7).writeReg 1 32768) (fun t => (ending t, t.readReg 0)) =
      some ((.faulted, some .memoryOutOfBounds, 0), 7) := by decide
/-- V87: the register is the address, not the target. -/
theorem test_wmem :
    after ((running [16, 32768, 5]).writeReg 0 10) (fun t => (t.readCell 10, t.readReg 0, t.pc)) = some (5, 10, 3) := by decide
/-- V88. -/
theorem test_wmem_out_of_bounds :
    after ((running [16, 32768, 5]).writeReg 0 32768) ending = some (.faulted, some .memoryOutOfBounds, 0) := by decide
/-- V81: the whole word is recorded, its low byte presented. -/
theorem test_out :
    after ((running [19, 32768]).writeReg 0 321) (fun t => (t.out, t.presented, t.pc)) = some ([321], [65], 2) := by decide
/-- V82. -/
theorem test_in :
    after ((running [20, 32768]).setInp [104, 105]) (fun t => (t.readReg 0, t.inp, t.pc)) = some (104, [105], 2) := by decide
/-- V83: it holds; V85: an ill-formed IN does not. -/
theorem test_in_holds :
    after (running [20, 32768]) ending = some (.running, none, 0) ∧
    after (running [20, 40000]) ending = some (.faulted, some .operandOverflow, 0) := by decide

/-- V18, the fetch after the SET: the next instruction was rewritten into HALT. -/
theorem test_store_then_fetch :
    ((running [1, 3, 0, 21, 19, 66]).writeCell 3 0 |>.setPc 3).fetch = .ok .halt := by decide

/-- L1, L8. -/
theorem test_load :
    (match load [0x13, 0, 0x41, 0] State.reset with
      | .next (r, t) => decide (r = .success ∧ t.psize = 2 ∧ t.readCell 0 = 19 ∧ t.readCell 1 = 65 ∧ t.readCell 2 = 0 ∧ t.loaded = true)
      | _ => false) = true ∧
    (Memory.ofBytes 0 [0x00, 0x80, 0xff, 0x7f]).readWord 0 = 32768 ∧
    (Memory.ofBytes 0 [0x00, 0x80, 0xff, 0x7f]).readWord 1 = 32767 := by decide

/-- L9, and the lifecycle (R214 to R216). -/
theorem test_lifecycle :
    dropResult (load [1, 2, 3] State.reset) = .refused .oddLength ∧
    execute State.reset = .refused .executeBeforeLoad ∧
    execute (State.reset.loadImage [0, 0]) = .next (running [0]) ∧
    execute (running [0]) = .refused .executeTwice ∧
    free (running [0]) = .refused .freeBeforeEnd ∧
    free ((running [0]).setRun .halted) = .next ((running [0]).setRun .released) ∧
    step ((running [0]).setRun .released) = .refused .afterFree := by
  refine ⟨?_, ?_, ?_, ?_, ?_, ?_, ?_⟩ <;> rfl

/-! ### 3. Witnesses: states and operands that meet each statement's hypotheses -/

theorem witness_DecodeAcceptsOnlyEncodings : decode 2 [32775, 7] = .ok (.push (.reg 7), [7]) := by decide

/-- The boundaries of the three classes, for `OperandWordClasses`, `ValueOfOperandWord` and
`TargetWriteReachesItsLocation`. -/
theorem witness_OperandWordClasses :
    Operand.ofWord 32767 = some (.lit 32767) ∧ Operand.ofWord 32768 = some (.reg 0) ∧
    Operand.ofWord 32775 = some (.reg 7) ∧ Operand.ofWord 32776 = none := by decide

/-- Both clauses of `UnknownOpcodeEndsTheRun`, where they meet; also `ChecksComeInReadingOrderBeforeTheHandler`. -/
theorem witness_UnknownOpcodeEndsTheRun :
    (running [22]).fetching ∧ (running [22]).opcodeAtPc = 22 ∧ (running [21]).fetching ∧ (running [21]).opcodeAtPc = 21 := by decide

/-- The first and the last operand; and a handler's next state for the second clause. -/
theorem witness_IllegalOperandEndsTheRun :
    ((running [2, 32776]).fetching ∧ (0 < arityOf (running [2, 32776]).opcodeAtPc) ∧ 0 + 1 + 0 < (running [2, 32776]).psize.val ∧
      32776 ≤ ((running [2, 32776]).readCell 1).toNat) ∧
    ((running [4, 32768, 0, 65535]).fetching ∧ (2 < arityOf (running [4, 32768, 0, 65535]).opcodeAtPc) ∧
      (∀ k < 2, (running [4, 32768, 0, 65535]).operandOk k) ∧ 32776 ≤ ((running [4, 32768, 0, 65535]).readCell 3).toNat) ∧
    nextOf (exec .nop State.reset) = some (State.reset.setPc 1) ∧ State.reset.fault ≠ some .operandOverflow := by decide

/-- A missing word after legal ones, and one after an illegal one. -/
theorem witness_MissingOperandEndsTheRun :
    ((running [1, 32768]).fetching ∧ 1 < arityOf (running [1, 32768]).opcodeAtPc ∧ (running [1, 32768]).psize.val ≤ 0 + 1 + 1 ∧
      ∀ k < 1, (running [1, 32768]).operandOk k) ∧
    ((running [1, 40000]).fetching ∧ 1 < arityOf (running [1, 40000]).opcodeAtPc ∧ (running [1, 40000]).psize.val ≤ 0 + 1 + 1) := by decide

/-- At PSIZE and at the largest pc. -/
theorem witness_ExhaustionEndsTheRunCleanly :
    ((running [21]).setPc 1).run = .running ∧ ((running [21]).setPc 1).psize.val ≤ ((running [21]).setPc 1).pc.toNat ∧
    ((running [21]).setPc 65535).psize.val ≤ ((running [21]).setPc 65535).pc.toNat := by decide

theorem witness_StepRunsTheDecodedInstruction :
    (running [1, 32768, 2]).fetching ∧
    decode ((running [1, 32768, 2]).readCell 0) ((running [1, 32768, 2]).wordsFrom 1 3) = .ok (.set (.reg 0) (.lit 2), []) := by decide

theorem witness_EncodedInstructionAtPcRuns :
    (running [1, 32768, 2]).run = .running ∧ 0 + (encode (.set (.reg 0) (.lit 2))).length ≤ (running [1, 32768, 2]).psize.val ∧
    ∀ (k : Nat) (h : k < (encode (.set (.reg 0) (.lit 2))).length), (running [1, 32768, 2]).readCell (0 + k) = (encode (.set (.reg 0) (.lit 2)))[k] := by decide

/-- WMEM 4, 65 rewrites the operand of the OUT at 3 (program P4 of 95_test_vectors.md). -/
theorem witness_StoreIsSeenByTheNextFetch :
    (nextOf (exec (.wmem (.lit 4) (.lit 65)) (running [16, 4, 65, 19, 66]))).isSome = true ∧ (running [16, 4, 65, 19, 66]).run = .running ∧
    3 + (encode (.out (.lit 65))).length ≤ (running [16, 4, 65, 19, 66]).psize.val ∧
    ∀ (k : Nat) (h : k < (encode (.out (.lit 65))).length),
      (encode (.out (.lit 65)))[k] = if 3 + k = 4 then 65 else (running [16, 4, 65, 19, 66]).readCell (3 + k) := by decide

theorem witness_EngineMovesOnlyWhileRunning :
    State.reset.run = .idle ∧ ((running [0]).setRun .halted).run ≠ .running ∧ ((running [0]).setRun .released).run = .released := by decide

/-- Steps that go on, halt, exhaust and fault. -/
theorem witness_RunEndsInExactlyThreeWays :
    after (running [21]) State.run = some .running ∧ after (running [0]) State.run = some .halted ∧
    after (running []) State.run = some .exhausted ∧ after (running [18]) State.run = some .faulted := by decide

/-- Also for `HandlersRaiseOnlyTheirOwnFault`. -/
theorem witness_FaultsArePrecise :
    (running [18]).run ≠ .faulted ∧ nextOf (exec .ret (running [18])) = some ((running [18]).raise .stackUnderflow) ∧
    nextOf (step (running [18])) = some ((running [18]).raise .stackUnderflow) := by decide

/-- A faulted state that meets the invariant, under a step, a supplied byte and free. -/
theorem witness_FaultIsFinal :
    ((running [18]).raise .stackUnderflow).Inv ∧ ((running [18]).raise .stackUnderflow).run = .faulted ∧
    (nextOf (act none ((running [18]).raise .stackUnderflow))).isSome = true ∧
    (nextOf (act (some (.supply 1)) ((running [18]).raise .stackUnderflow))).isSome = true ∧
    (nextOf (act (some .free) ((running [18]).raise .stackUnderflow))).isSome = true := by
  refine ⟨⟨?_, ?_, ?_, ?_, ?_, ?_, ?_, ?_⟩, ?_, ?_, ?_, ?_⟩ <;> decide

/-- The last cell and the first address beyond it, for the two accesses and for RMEM and WMEM. -/
theorem witness_MemoryBounds :
    (32767#16).toNat < 32768 ∧ 32768 ≤ (32768#16).toNat ∧
    ((running []).writeReg 1 32767).value (.reg 1) = 32767 ∧ ((running []).writeReg 1 32768).value (.reg 1) = 32768 := by decide

/-- An unbounded stack, one with room for one word, and a full one, for `push`, PUSH and CALL. -/
theorem witness_PushAppendsUpToCapacity :
    (running []).config.stackCapacity = none ∧
    ((capped 3 ((running []).setStack [1, 2])).config.stackCapacity = some 3 ∧ (capped 3 ((running []).setStack [1, 2])).stack.length < 3) ∧
    (capped 2 ((running []).setStack [1, 2])).config.stackCapacity = some (capped 2 ((running []).setStack [1, 2])).stack.length := by decide

/-- An empty stack and one of two words, for `pop`, POP and RET. -/
theorem witness_PopTakesTheTop : (running []).stack = [] ∧ ((running []).setStack [5, 9]).stack = [5] ++ [9] := by decide

theorem witness_StackIsLastInFirstOut :
    (∃ t, State.reset.pushAll [1, 2, 3] = .ok t ∧ t.stack = [1, 2, 3]) ∧ State.reset.stack = [] ∧
    (nextOf (exec (.push (.lit 1)) State.reset)).isSome = true ∧ ([1, 2] : List Word).length = ([3, 4] : List Word).length :=
  ⟨⟨_, rfl, rfl⟩, rfl, rfl, rfl⟩

theorem witness_CallThenRetResumesAfterTheCall :
    (running [17, 9]).run = .running ∧
    (nextOf (exec (.call (.lit 9)) (running [17, 9]))).map (fun t => (t.run, t.stack)) = some (.running, [2]) ∧
    (State.reset.setStack [2]).stack = [2] := by decide

/-- The smallest divisor and zero. -/
theorem witness_ModStoresTheRemainderModulo32768 :
    ((running []).value (.lit 1)).toNat ≠ 0 ∧ ((running []).value (.lit 0)).toNat = 0 := by decide

theorem witness_InTakesTheNextByteOrHolds :
    ((running []).setInp [255]).inp = 255 :: [] ∧ (running []).inp = [] := by decide

/-- Also for `InstructionsNeitherWriteNorReadPsize`. -/
theorem witness_StreamsMoveOnlyByOutAndIn :
    after (running [19, 65]) State.out = some [65] ∧ after ((running [20, 32768]).setInp [7]) State.inp = some [] ∧
    (nextOf (hostMove (.supply 7) (running []))).map State.inp = some [7] := by decide

theorem witness_MovesKeepTheInvariant :
    State.reset.Inv ∧ (nextOf (act none State.reset)).isSome = true ∧ (nextOf (act (some (.load [0, 0])) State.reset)).isSome = true := by
  refine ⟨⟨?_, ?_, ?_, ?_, ?_, ?_, ?_, ?_⟩, ?_, ?_⟩ <;> decide

/-- A load that succeeds, and a second one. -/
theorem witness_LoadedIsSetOnceByLoad :
    load [0, 0] State.reset = .next (.success, State.reset.loadImage [0, 0]) ∧
    (nextOf (act (some (.load [0, 0])) State.reset)).map State.loaded = some true ∧ State.reset.loaded = false ∧
    (State.reset.loadImage [0, 0]).loaded = true ∧ (State.reset.loadImage [0, 0]).run ≠ .released := by
  refine ⟨rfl, ?_, ?_, ?_, ?_⟩ <;> decide

/-- L5; L4, the first even length that is rejected, and L3, the last that is accepted. -/
theorem witness_LoadLengths :
    (State.reset.loadImage []).loaded = true ∧ (State.reset.loadImage []).run ≠ .released ∧
    State.reset.loaded = false ∧ State.reset.run = .idle ∧
    (List.replicate 65538 (0 : Byte)).length % 2 = 0 ∧ 65536 < (List.replicate 65538 (0 : Byte)).length ∧
    (List.replicate 65536 (0 : Byte)).length % 2 = 0 ∧ (List.replicate 65536 (0 : Byte)).length ≤ 65536 := by
  simp only [List.length_replicate]
  decide

/-- A loaded instance that has not started, in a state that meets the invariant. -/
theorem witness_ExecuteStartsTheRun :
    (State.reset.loadImage [0, 0]).run = .idle ∧ (State.reset.loadImage [0, 0]).loaded = true ∧ (State.reset.loadImage [0, 0]).Inv := by
  refine ⟨?_, ?_, ⟨?_, ?_, ?_, ?_, ?_, ?_, ?_, ?_⟩⟩ <;> decide

/-- One state per clause: an odd image and execute before load at reset, a second execute, a load and an early free
while running, an early free at reset, and a released instance. -/
theorem witness_OutOfOrderHostMovesAreRefused :
    (State.reset.run = .idle ∧ State.reset.loaded = false ∧ ([1, 2, 3] : List Byte).length % 2 = 1) ∧
    ((running [0]).run ≠ .idle ∧ (running [0]).run ≠ .released) ∧ (running [0]).run = .running ∧
    ((running [0]).setRun .released).run = .released := by decide

theorem witness_FreeReleasesAnEndedRun :
    ((running []).setRun .halted).cleanStop ∧ ((running []).setRun .exhausted).cleanStop ∧
    ((running [18]).raise .stackUnderflow).run = .faulted := by decide

/-- A byte supplied during a run. -/
theorem witness_HostCannotDisturbARun :
    (running [0]).run = .running ∧ (nextOf (hostMove (.supply 1) (running [0]))).isSome = true := by decide

/-- The load row of R218: a second load in IDLE is L5, and in a run it is no move. -/
theorem test_hostLoad_only_when_idle :
    (nextOf (hostMove (.load [0, 0]) (State.reset.loadImage [21, 0]))).map State.trace = some (some ⟨.load, .alreadyLoaded⟩) ∧
    hostMove (.load [0, 0]) (running [21]) = .refused .loadOutOfOrder ∧
    hostMove (.load [0, 0]) ((running [21]).setRun .halted) = .refused .loadOutOfOrder :=
  ⟨by decide, rfl, rfl⟩

end Sys2Proof.Tests
end

section
/-! The memory primitives of 20_memory.md (R52, R53), each from its spec lemma `memRead_cases`, `memWrite_cases`:
the bound selects one case and the other contradicts it. -/

namespace Sys2Proof.Machine

/-- Settles O20: the bound decides which case of `State.memRead_cases` holds. -/
theorem memReadIsBoundedByCapacity : Obligations.MemReadIsBoundedByCapacity := by
  unfold Obligations.MemReadIsBoundedByCapacity
  intro s addr
  rcases s.memRead_cases addr with ⟨hlt, hread⟩ | ⟨hge, hread⟩
  · exact ⟨fun hge => absurd hlt (by omega), fun _ => hread⟩
  · exact ⟨fun _ => hread, fun hlt => absurd hge (by omega)⟩

/-- Settles O21: below the bound the new state is `writeCell`, whose read-after-write rules give the cell and
its frame. -/
theorem memWriteStoresOneWholeWord : Obligations.MemWriteStoresOneWholeWord := by
  unfold Obligations.MemWriteStoresOneWholeWord
  intro s addr v
  rcases s.memWrite_cases addr v with ⟨hlt, hwrite⟩ | ⟨hge, hwrite⟩
  · refine ⟨fun hge => absurd hlt (by omega), fun _ => ⟨s.writeCell addr.toNat v, hwrite, ?_, ?_, rfl⟩⟩
    · exact s.readCell_writeCell_same addr.toNat v
    · exact fun c hc => s.readCell_writeCell_other addr.toNat c v hc
  · exact ⟨fun _ => hwrite, fun hlt => absurd hge (by omega)⟩

end Sys2Proof.Machine
end

section
/-! The decode-time checks of the fetch (30_encoding.md R77 to R79, 40_cycle_and_operands.md R98). The decoder reads a
list of words and `State.operandFault` reads the cells; the lemmas below show format by format that both meet the same
first fault, so that a statement about an operand word is one about `State.operandFault`. -/

namespace Sys2Proof.Machine
open Sys2Proof

/-! ### The decoder and `State.operandFault` meet the same fault -/

/-- The fault a decoding ends in, if any. -/
def faultOf {α : Type} : Except DecodeError α → Option Fault
  | .error e => some (decodeFault e)
  | .ok _ => none

@[simp] theorem faultOf_error {α : Type} (e : DecodeError) : faultOf (.error e : Except DecodeError α) = some (decodeFault e) := rfl

@[simp] theorem faultOf_ok {α : Type} (x : α) : faultOf (.ok x) = none := rfl

theorem State.fetch_error_iff_faultOf (s : State) (r : Fault) :
    s.fetch = .error r ↔ faultOf (decode (s.readCell s.pc.toNat) (s.wordsFrom (s.pc.toNat + 1) 3)) = some r := by
  unfold State.fetch
  cases decode (s.readCell s.pc.toNat) (s.wordsFrom (s.pc.toNat + 1) 3) <;> simp

@[simp] theorem State.operandFault_zero (s : State) (a : Nat) : s.operandFault a 0 = none := rfl

theorem State.operandFault_outside {s : State} {a : Nat} (h : s.psize.val ≤ a) (n : Nat) :
    s.operandFault a (n + 1) = some .operandCountMismatch := by
  simp [State.operandFault, h]

theorem State.operandFault_illegal {s : State} {a : Nat} (h : a < s.psize.val) (hw : 32776 ≤ (s.readCell a).toNat) (n : Nat) :
    s.operandFault a (n + 1) = some .operandOverflow := by
  simp [State.operandFault, Nat.not_le.2 h, hw]

theorem State.operandFault_legal {s : State} {a : Nat} (h : a < s.psize.val) (hw : (s.readCell a).toNat < 32776) (n : Nat) :
    s.operandFault a (n + 1) = s.operandFault (a + 1) n := by
  simp [State.operandFault, Nat.not_le.2 h, Nat.not_le.2 hw]

/-- Reading the operand word at `a` either raises the fault that `State.operandFault` gives, or goes on at `a + 1`. -/
theorem State.takeOperand_wordsFrom_cases (s : State) (a m : Nat) :
    (∃ e, takeOperand (s.wordsFrom a (m + 1)) = .error e ∧ ∀ n, s.operandFault a (n + 1) = some (decodeFault e)) ∨
    (∃ o, takeOperand (s.wordsFrom a (m + 1)) = .ok (o, s.wordsFrom (a + 1) m) ∧
      ∀ n, s.operandFault a (n + 1) = s.operandFault (a + 1) n) := by
  by_cases hin : a < s.psize.val
  · rw [s.wordsFrom_inside a m hin]
    by_cases hw : (s.readCell a).toNat < 32776
    · obtain ⟨o, ho⟩ := Operand.ofWord_isSome _ hw
      exact .inr ⟨o, by simp [takeOperand, ho], State.operandFault_legal hin hw⟩
    · have hill : 32776 ≤ (s.readCell a).toNat := by omega
      exact .inl ⟨.operandOverflow, by simp [takeOperand, Operand.ofWord_illegal _ hill],
        State.operandFault_illegal hin hill⟩
  · have hout : s.psize.val ≤ a := by omega
    rw [s.wordsFrom_outside a (m + 1) hout]
    exact .inl ⟨.operandCountMismatch, rfl, State.operandFault_outside hout⟩

theorem State.faultOf_decodeF1 (s : State) (k : Operand → Instr) (a m : Nat) :
    faultOf (decodeF1 k (s.wordsFrom a (m + 1))) = s.operandFault a 1 := by
  rcases s.takeOperand_wordsFrom_cases a m with ⟨e, htake, hfault⟩ | ⟨o, htake, hfault⟩
  · simp [decodeF1, htake, hfault]
  · simp [decodeF1, htake, hfault]

theorem State.faultOf_decodeF2 (s : State) (k : Operand → Operand → Instr) (a m : Nat) :
    faultOf (decodeF2 k (s.wordsFrom a (m + 2))) = s.operandFault a 2 := by
  rcases s.takeOperand_wordsFrom_cases a (m + 1) with ⟨e, htake, hfault⟩ | ⟨o, htake, hfault⟩
  · simp [decodeF2, htake, hfault]
  · simp [decodeF2, htake, hfault, s.faultOf_decodeF1]

theorem State.faultOf_decodeF3 (s : State) (k : Operand → Operand → Operand → Instr) (a m : Nat) :
    faultOf (decodeF3 k (s.wordsFrom a (m + 3))) = s.operandFault a 3 := by
  rcases s.takeOperand_wordsFrom_cases a (m + 2) with ⟨e, htake, hfault⟩ | ⟨o, htake, hfault⟩
  · simp [decodeF3, htake, hfault]
  · simp [decodeF3, htake, hfault, s.faultOf_decodeF2]

/-- A legal opcode word selects one of the four formats of R70, and `arityOf` counts its operands (R74, R75). -/
theorem decode_format {op : Word} (h : op.toNat < 22) :
    (arityOf op.toNat = 0 ∧ ∃ i, ∀ ws, decode op ws = .ok (i, ws)) ∨
    (arityOf op.toNat = 1 ∧ ∃ k, ∀ ws, decode op ws = decodeF1 k ws) ∨
    (arityOf op.toNat = 2 ∧ ∃ k, ∀ ws, decode op ws = decodeF2 k ws) ∨
    (arityOf op.toNat = 3 ∧ ∃ k, ∀ ws, decode op ws = decodeF3 k ws) := by
  unfold decode
  generalize op.toNat = n at h ⊢
  match n, h with
  | 0, _ | 18, _ | 21, _ => exact .inl ⟨rfl, _, fun _ => rfl⟩
  | 2, _ | 3, _ | 6, _ | 17, _ | 19, _ | 20, _ => exact .inr (.inl ⟨rfl, _, fun _ => rfl⟩)
  | 1, _ | 7, _ | 8, _ | 14, _ | 15, _ | 16, _ => exact .inr (.inr (.inl ⟨rfl, _, fun _ => rfl⟩))
  | 4, _ | 5, _ | 9, _ | 10, _ | 11, _ | 12, _ | 13, _ => exact .inr (.inr (.inr ⟨rfl, _, fun _ => rfl⟩))
  | n + 22, h => omega

/-- Under a legal opcode word the decoder ends in the first fault of the operand words, or in none. -/
theorem State.faultOf_decode (s : State) (a : Nat) {op : Word} (h : op.toNat < 22) :
    faultOf (decode op (s.wordsFrom a 3)) = s.operandFault a (arityOf op.toNat) := by
  rcases decode_format h with ⟨harity, i, hdec⟩ | ⟨harity, k, hdec⟩ | ⟨harity, k, hdec⟩ | ⟨harity, k, hdec⟩ <;>
    rw [harity, hdec]
  · rfl
  · exact s.faultOf_decodeF1 k a 2
  · exact s.faultOf_decodeF2 k a 1
  · exact s.faultOf_decodeF3 k a 0

/-- Under a legal opcode word the fetch raises the first fault of the operand words (R98 (2)), and no other. -/
theorem State.fetch_error_iff_operandFault {s : State} (h : s.opcodeAtPc < 22) (r : Fault) :
    s.fetch = .error r ↔ s.operandFault (s.pc.toNat + 1) (arityOf s.opcodeAtPc) = some r := by
  rw [s.fetch_error_iff_faultOf, s.faultOf_decode _ h]

theorem State.fetch_of_unknown_opcode {s : State} (h : 22 ≤ s.opcodeAtPc) : s.fetch = .error .unknownOpcode := by
  rw [s.fetch_error_iff_faultOf, decode_unknown _ _ h, faultOf_error, decodeFault]

/-! ### What `State.operandFault` can be -/

/-- An operand word is missing or illegal, and no other fault is one of an operand word (R78, R79). -/
theorem State.operandFault_eq_some {s : State} {r : Fault} {n a : Nat} (h : s.operandFault a n = some r) :
    r = .operandCountMismatch ∨ r = .operandOverflow := by
  induction n generalizing a with
  | zero => cases h
  | succ n ih =>
    unfold State.operandFault at h
    split at h
    · cases h; exact .inl rfl
    split at h
    · cases h; exact .inr rfl
    · exact ih h

/-- Where one of the operand words lies at or beyond PSIZE, some operand word raises a fault. -/
theorem State.operandFault_isSome_of_missing {s : State} {m n a : Nat} (hn : n < m) (hout : s.psize.val ≤ a + n) :
    ∃ r, s.operandFault a m = some r := by
  induction m generalizing n a with
  | zero => omega
  | succ m ih =>
    unfold State.operandFault
    split
    · exact ⟨_, rfl⟩
    split
    · exact ⟨_, rfl⟩
    · exact ih (n := n - 1) (by omega) (by omega)

/-- The operand words that are inside the image and legal do not count: the fault is that of the words after them. -/
theorem State.operandFault_after_legal {s : State} {n a m : Nat}
    (hok : ∀ k < n, a + k < s.psize.val ∧ (s.readCell (a + k)).toNat < 32776) :
    s.operandFault a (n + m) = s.operandFault (a + n) m := by
  induction n generalizing a with
  | zero => simp
  | succ n ih =>
    obtain ⟨hin, hlegal⟩ := hok 0 (by omega)
    have hrest : ∀ k < n, a + 1 + k < s.psize.val ∧ (s.readCell (a + 1 + k)).toNat < 32776 := fun k hk => by
      simpa only [Nat.add_assoc, Nat.add_comm 1 k] using hok (k + 1) (by omega)
    calc s.operandFault a (n + 1 + m)
        = s.operandFault a (n + m + 1) := by rw [Nat.add_right_comm]
      _ = s.operandFault (a + 1) (n + m) := State.operandFault_legal hin hlegal (n + m)
      _ = s.operandFault (a + (n + 1)) m := by rw [ih hrest, Nat.add_right_comm, Nat.add_assoc]

/-! ### A fetching engine that ends in a fault -/

theorem endsInFault_of_fetch_error {s : State} {r : Fault} (hs : s.fetching) (h : s.fetch = .error r) :
    EndsInFault r s (step s) :=
  ⟨s.raise r, step_of_fetch_error hs h, rfl⟩

/-- A step ends in a fault only by a decode fault of the fetch or by the fetched handler's own fault: a handler
that completes leaves RUN other than FAULTED. -/
theorem fetch_of_endsInFault {s : State} {r : Fault} (hs : s.fetching) (h : EndsInFault r s (step s)) :
    s.fetch = .error r ∨ ∃ i, s.fetch = .ok i ∧ handlerFault i = some r := by
  obtain ⟨t, hstep, ht⟩ := h
  have hrun : t.run = .faulted := by rw [ht]
  have hfault : t.fault = some r := by rw [ht]
  cases hfetch : s.fetch with
  | error q =>
    rw [step_of_fetch_error hs hfetch] at hstep
    cases hstep
    cases hfault
    exact .inl rfl
  | ok i =>
    rw [step_of_fetch_ok hs hfetch] at hstep
    rcases exec_cases hstep with ⟨q, hq, rfl⟩ | hdone
    · cases hfault
      exact .inr ⟨i, rfl, hq⟩
    · rcases hdone.run with hsame | ⟨-, hhalted⟩
      · simp [hsame, hs.1] at hrun
      · simp [hhalted] at hrun

/-- `UnknownOpcode` is no handler's fault (R199). -/
theorem handlerFault_ne_unknownOpcode (i : Instr) : handlerFault i ≠ some .unknownOpcode := by
  cases i <;> simp [handlerFault]

/-! ### The statements -/

/-- Settles O7: the fetch raises the first fault of the operand words; a missing word makes sure there is one, and
legal words before it make it the missing word's. -/
theorem missingOperandEndsTheRun : Obligations.MissingOperandEndsTheRun := by
  unfold Obligations.MissingOperandEndsTheRun
  intro s n hs hop hn hout
  have ends : ∀ {r}, s.operandFault (s.pc.toNat + 1) (arityOf s.opcodeAtPc) = some r → EndsInFault r s (step s) :=
    fun hr => endsInFault_of_fetch_error hs ((State.fetch_error_iff_operandFault hop _).2 hr)
  constructor
  · obtain ⟨r, hr⟩ := State.operandFault_isSome_of_missing hn hout
    rcases State.operandFault_eq_some hr with rfl | rfl
    · exact .inl (ends hr)
    · exact .inr (ends hr)
  · intro hok
    obtain ⟨m, hm⟩ : ∃ m, arityOf s.opcodeAtPc = n + (m + 1) := ⟨arityOf s.opcodeAtPc - n - 1, by omega⟩
    apply ends
    rw [hm, State.operandFault_after_legal hok, State.operandFault_outside hout]

/-- Settles O5: the decoder rejects an opcode word of 22 or more before any operand word. Under a legal opcode word
the fetch raises an operand fault and the handler its own, and neither is `UnknownOpcode`. -/
theorem unknownOpcodeEndsTheRun : Obligations.UnknownOpcodeEndsTheRun := by
  unfold Obligations.UnknownOpcodeEndsTheRun
  intro s hs
  refine ⟨fun hop => endsInFault_of_fetch_error hs (State.fetch_of_unknown_opcode hop), fun hop hend => ?_⟩
  rcases fetch_of_endsInFault hs hend with hfetch | ⟨i, -, hi⟩
  · have hoperand := State.operandFault_eq_some ((State.fetch_error_iff_operandFault hop _).1 hfetch)
    simp at hoperand
  · exact handlerFault_ne_unknownOpcode i hi

end Sys2Proof.Machine
end

section
/-! Operand words as values and as targets (40_cycle_and_operands.md R90 to R92): the class of the word selects the
operand, and the rules of `State.value` and `State.targetWrite` say what it reads and writes. -/

namespace Sys2Proof.Machine
open Sys2Proof

/-- The value of a literal operand is its operand word (R73, R90). -/
theorem State.value_lit_eq_toWord (s : State) (n : BitVec 15) : s.value (.lit n) = (Operand.lit n).toWord := rfl

/-- Settles O18: a literal operand's value is its own word, and decoding then encoding a legal word gives it back. -/
theorem valueOfOperandWord : Obligations.ValueOfOperandWord := by
  unfold Obligations.ValueOfOperandWord
  intro w s
  refine ⟨fun hlit => ?_, fun r hreg => ?_, Operand.ofWord_illegal w⟩
  · have hword := Operand.ofWord_lit w (by omega)
    exact ⟨_, hword, by rw [s.value_lit_eq_toWord, Operand.toWord_of_ofWord w _ hword]⟩
  · exact ⟨.reg r, Operand.ofWord_reg w r hreg, rfl⟩

/-- The location a register reference names (R91). -/
theorem resolveTarget_of_ofWord_reg {w : Word} {o : Operand} {r : Fin 8} (ho : Operand.ofWord w = some o)
    (hw : w.toNat = 32768 + r.val) : resolveTarget o = .reg r := by
  rw [Operand.ofWord_reg w r hw] at ho
  cases ho
  rfl

/-- The cell a literal names is the one whose address is the word itself (R92). -/
theorem resolveTarget_of_ofWord_lit {w : Word} {o : Operand} (ho : Operand.ofWord w = some o)
    (hw : w.toNat < 32768) : resolveTarget o = .cell w.toNat := by
  rw [Operand.ofWord_lit w hw] at ho
  cases ho
  simp [resolveTarget, Nat.mod_eq_of_lt hw]

/-- A target write leaves everything but its location as it was (R91). -/
theorem State.sameBut_targetWrite (s : State) (a : Operand) (v : Word) :
    SameBut [resolveTarget a] s (s.targetWrite a v) := by
  have hregs : ∀ r, Location.reg r ∉ [resolveTarget a] → (s.targetWrite a v).readReg r = s.readReg r :=
    fun r hr => s.readReg_targetWrite_other a v r fun e => hr (by simp [e])
  have hmem : ∀ k, Location.cell (k / 2) ∉ [resolveTarget a] →
      (s.targetWrite a v).mem.readByte k = s.mem.readByte k :=
    fun k hk => s.readByte_targetWrite_other a v k fun e => hk (by simp [e])
  exact ⟨⟨hregs, hmem, by simp⟩, by simp⟩

/-- A target write, by the location `l` its operand names (R91). -/
theorem State.targetWrite_at {a : Operand} {l : Location} (h : resolveTarget a = l) (s : State) (v : Word) :
    (s.targetWrite a v).readLoc l = v ∧ SameBut [l] s (s.targetWrite a v) ∧ (s.targetWrite a v).pc = s.pc := by
  subst h
  exact ⟨s.readLoc_targetWrite a v, s.sameBut_targetWrite a v, s.targetWrite_pc a v⟩

/-- Settles O19: the class of the word gives the location, and `State.targetWrite_at` what a write to it does. -/
theorem targetWriteReachesItsLocation : Obligations.TargetWriteReachesItsLocation := by
  unfold Obligations.TargetWriteReachesItsLocation
  intro w v o s ho
  refine ⟨fun r hreg => ?_, fun hlit => ?_⟩
  · exact State.targetWrite_at (resolveTarget_of_ofWord_reg ho hreg) s v
  · exact State.targetWrite_at (resolveTarget_of_ofWord_lit ho (by omega)) s v

end Sys2Proof.Machine
end

section
/-! The stack (40_cycle_and_operands.md R93 to R95). That nothing below the top is read or changed rests on two facts:
the 18 instructions that do not use the stack commute with replacing it (`exec_setStack`), and of the four that do,
`push` reads the depth alone and `pop` the top alone. -/

namespace Sys2Proof.Machine
open Sys2Proof

/-! ### `push` and `pop` -/

/-- Settles O23: the two cases of `pop`. -/
theorem popTakesTheTop : Obligations.PopTakesTheTop := by
  unfold Obligations.PopTakesTheTop
  exact ⟨State.pop_nil, State.pop_concat⟩

/-- `pop` undoes `push` (R95). -/
theorem State.pop_of_push {s t : State} {v : Word} (h : s.push v = .ok t) : t.pop = .ok (v, s) := by
  rcases s.push_cases v with ⟨-, hpush⟩ | ⟨-, hpush⟩
  · cases hpush.symm.trans h
  · cases hpush.symm.trans h
    exact State.pop_concat _ s.stack v rfl

/-- One pop after `n` others. -/
theorem State.popMany_succ_of_popMany {n : Nat} {s t u : State} {vs : List Word} {v : Word}
    (hmany : s.popMany n = .ok (vs, t)) (hlast : t.pop = .ok (v, u)) : s.popMany (n + 1) = .ok (vs ++ [v], u) := by
  induction n generalizing s vs with
  | zero =>
    cases hmany
    simp [State.popMany, hlast]
  | succ n ih =>
    rw [State.popMany] at hmany ⊢
    split at hmany
    · cases hmany
    next w s' hpop =>
      split at hmany
      · cases hmany
      next ws t' hrest =>
        cases hmany
        simp [ih hrest]

/-- As many pops as pushes give the words back in reverse order, and the state before them (R95). -/
theorem State.popMany_of_pushAll {s t : State} {vs : List Word} (h : s.pushAll vs = .ok t) :
    t.popMany vs.length = .ok (vs.reverse, s) := by
  induction vs generalizing s with
  | nil =>
    cases h
    rfl
  | cons v vs ih =>
    rw [State.pushAll] at h
    split at h
    · cases h
    next u hpush =>
      rw [List.length_cons, List.reverse_cons]
      exact State.popMany_succ_of_popMany (ih h) (State.pop_of_push hpush)

/-- What an instruction leaves of the stack: all of it, one word more, or one word less (R95). -/
theorem stack_of_exec {i : Instr} {s t : State} (h : exec i s = .next t) :
    t.stack = s.stack ∨ (∃ v, t.stack = s.stack ++ [v]) ∨ (∃ v, s.stack = t.stack ++ [v]) := by
  rcases exec_cases h with ⟨r, -, rfl⟩ | hdone
  · exact .inl rfl
  · rcases hdone.stack with hsame | ⟨v, -, hpush⟩ | hpop
    · exact .inl hsame
    · exact .inr (.inl ⟨v, hpush⟩)
    · exact .inr (.inr hpop)

/-! ### The instructions that do not use the stack commute with replacing it -/

/-- The four instructions whose handlers call `push` or `pop`. -/
def usesStack : Instr → Bool
  | .push _ | .pop _ | .call _ | .ret => true
  | .halt | .set _ _ | .eq _ _ _ | .gt _ _ _ | .jmp _ | .jt _ _ | .jf _ _ | .add _ _ _ | .mult _ _ _
  | .mod _ _ _ | .and _ _ _ | .or _ _ _ | .not _ _ | .rmem _ _ | .wmem _ _ | .out _ | .in_ _ | .nop => false

@[simp] theorem State.value_setStack (s : State) (st : List Word) (a : Operand) : (s.setStack st).value a = s.value a := rfl

theorem State.nextPc_setStack (s : State) (st : List Word) (n : Nat) : (s.setStack st).nextPc n = s.nextPc n := rfl

theorem writeResult_setStack (a : Operand) (v : Word) (n : Nat) (s : State) (st : List Word) :
    writeResult a v n (s.setStack st) = mapNext (·.setStack st) (writeResult a v n s) := by
  cases a <;> rfl

/-- A handler that neither pushes nor pops does the same over any stack, and leaves that stack (R95). -/
theorem exec_setStack {i : Instr} (hi : usesStack i = false) (s : State) (st : List Word) :
    exec i (s.setStack st) = mapNext (·.setStack st) (exec i s) := by
  cases i with
  | push _ | pop _ | call _ | ret => cases hi
  | halt | nop | jmp a | out a => rfl
  | set a _ | eq a _ _ | gt a _ _ | add a _ _ | mult a _ _ | and a _ _ | or a _ _ | not a _ =>
    exact writeResult_setStack a _ _ s st
  | jt a b | jf a b =>
    cases hz : isZero (s.value a) <;>
      simp only [exec, execJt, execJf, State.value_setStack, hz, Bool.false_eq_true, if_true, if_false] <;> rfl
  | mod a b c =>
    cases hz : isZero (s.value c) with
    | true => simp only [exec, execMod, State.value_setStack, hz, if_true]; rfl
    | false =>
      simp only [exec, execMod, State.value_setStack, hz, Bool.false_eq_true, if_false]
      exact writeResult_setStack a _ 3 s st
  | rmem a b =>
    have hread : (s.setStack st).memRead (s.value b) = s.memRead (s.value b) := rfl
    simp only [exec, execRmem, State.value_setStack, hread]
    cases s.memRead (s.value b) with
    | error r => rfl
    | ok v => exact writeResult_setStack a v 2 s st
  | wmem a b =>
    by_cases haddr : (s.value a).toNat < 32768 <;>
      simp only [exec, execWmem, State.memWrite, State.value_setStack, haddr, if_true, if_false] <;> rfl
  | in_ a =>
    simp only [exec, execIn, State.setStack_inp]
    split
    · rfl
    · exact writeResult_setStack a _ 1 (s.setInp _) st

/-! ### What lies below the top makes no difference -/

/-- Whether `push` faults depends on the depth of the stack alone (R93). -/
theorem State.push_setStack_of_length (s : State) (w : Word) (n : Nat) :
    (∀ st, st.length = n → (s.setStack st).push w = .error .allocationFailure) ∨
    (∀ st, st.length = n → (s.setStack st).push w = .ok (s.setStack (st ++ [w]))) := by
  by_cases hfull : ∃ c, s.config.stackCapacity = some c ∧ c ≤ n
  · left
    rintro st rfl
    exact State.push_full _ _ ((State.stackFull_iff _).2 hfull)
  · right
    rintro st rfl
    exact State.push_ok _ _ (Bool.eq_false_iff.2 fun h => hfull ((State.stackFull_iff _).1 h))

/-- Over every stack of depth `n + 1` with top `v` a handler has one and the same outcome `o`, which it leaves with
`ws` in place of the top and all the words below as they were (R95). -/
theorem exec_over_below (i : Instr) (s : State) (v : Word) (n : Nat) :
    ∃ (o : Host.Outcome State Fault Refusal) (ws : List Word), ∀ below : List Word, below.length = n →
      exec i (s.setStack (below ++ [v])) = mapNext (·.setStack (below ++ ws)) o := by
  have hdepth : ∀ below : List Word, below.length = n → (below ++ [v]).length = n + 1 := by simp
  cases i with
  | push a =>
    rcases s.push_setStack_of_length (s.value a) (n + 1) with hpush | hpush
    · exact ⟨takeFault .allocationFailure s, [v], fun below hb => by
        simp only [exec, execPush, State.value_setStack, hpush _ (hdepth below hb)]; rfl⟩
    · exact ⟨.next (s.advance 1), [v, s.value a], fun below hb => by
        simp only [exec, execPush, State.value_setStack, hpush _ (hdepth below hb), List.append_assoc]; rfl⟩
  | call a =>
    rcases s.push_setStack_of_length (s.nextPc 1) (n + 1) with hpush | hpush
    · exact ⟨takeFault .allocationFailure s, [v], fun below hb => by
        simp only [exec, execCall, State.nextPc_setStack, hpush _ (hdepth below hb)]; rfl⟩
    · exact ⟨.next (s.setPc (s.value a)), [v, s.nextPc 1], fun below hb => by
        simp only [exec, execCall, State.nextPc_setStack, hpush _ (hdepth below hb), List.append_assoc]; rfl⟩
  | pop a =>
    refine ⟨writeResult a v 1 s, [], fun below _ => ?_⟩
    simp only [exec, execPop, (s.setStack (below ++ [v])).pop_concat below v rfl, List.append_nil]
    exact writeResult_setStack a v 1 s below
  | ret =>
    refine ⟨.next (s.setPc v), [], fun below _ => ?_⟩
    simp only [exec, execRet, (s.setStack (below ++ [v])).pop_concat below v rfl, List.append_nil]
    rfl
  | _ => exact ⟨_, [v], fun below _ => exec_setStack rfl s (below ++ [v])⟩

/-- Dropping the `n` words below leaves what stood on them. -/
theorem mapNext_drop_below (o : Host.Outcome State Fault Refusal) (ws : List Word) {below : List Word} {n : Nat}
    (h : below.length = n) :
    mapNext (fun t => t.setStack (t.stack.drop n)) (mapNext (·.setStack (below ++ ws)) o) =
      mapNext (·.setStack ws) o := by
  have hdrop : (below ++ ws).drop n = ws := List.drop_left' h
  cases o with
  | next t => simp only [mapNext, State.setStack_stack, hdrop]; rfl
  | fault r => rfl
  | refused r => rfl

/-- Settles O24: the pushes are undone by induction on their list, the change of the stack is that of a completion,
and by `exec_over_below` the words below the top take no part. -/
theorem stackIsLastInFirstOut : Obligations.StackIsLastInFirstOut := by
  unfold Obligations.StackIsLastInFirstOut
  refine ⟨fun s t vs => State.popMany_of_pushAll, State.pop_nil, fun i s t => stack_of_exec, ?_⟩
  intro i s v below below' hlen
  obtain ⟨o, ws, hexec⟩ := exec_over_below i s v below.length
  rw [hexec below rfl, hexec below' hlen.symm, mapNext_drop_below o ws rfl, mapNext_drop_below o ws hlen.symm]

end Sys2Proof.Machine
end

section
/-! The decoder and the encoder (30_encoding.md). The three formats are read and inverted once (`decodeF1_toWord`,
`decodeF1_ok` and their like); the opcode map then only selects the format. -/

namespace Sys2Proof

/-! ### The formats of R70, read and inverted -/

@[simp] theorem decodeF1_toWord (k : Operand → Instr) (a : Operand) (ws : List Word) :
    decodeF1 k (a.toWord :: ws) = .ok (k a, ws) := by
  simp [decodeF1]

@[simp] theorem decodeF2_toWord (k : Operand → Operand → Instr) (a b : Operand) (ws : List Word) :
    decodeF2 k (a.toWord :: b.toWord :: ws) = .ok (k a b, ws) := by
  simp [decodeF2]

@[simp] theorem decodeF3_toWord (k : Operand → Operand → Operand → Instr) (a b c : Operand) (ws : List Word) :
    decodeF3 k (a.toWord :: b.toWord :: c.toWord :: ws) = .ok (k a b c, ws) := by
  simp [decodeF3]

theorem decodeF1_ok {k : Operand → Instr} {ws rest : List Word} {i : Instr} (h : decodeF1 k ws = .ok (i, rest)) :
    ∃ a, i = k a ∧ ws = a.toWord :: rest := by
  rcases htake : takeOperand ws with e | ⟨a, ws'⟩
  · simp [decodeF1, htake] at h
  · rw [decodeF1, htake] at h
    cases h
    exact ⟨a, rfl, takeOperand_ok htake⟩

theorem decodeF2_ok {k : Operand → Operand → Instr} {ws rest : List Word} {i : Instr}
    (h : decodeF2 k ws = .ok (i, rest)) : ∃ a b, i = k a b ∧ ws = a.toWord :: b.toWord :: rest := by
  rcases htake : takeOperand ws with e | ⟨a, ws'⟩
  · simp [decodeF2, htake] at h
  · rw [decodeF2, htake] at h
    obtain ⟨b, rfl, rfl⟩ := decodeF1_ok h
    exact ⟨a, b, rfl, takeOperand_ok htake⟩

theorem decodeF3_ok {k : Operand → Operand → Operand → Instr} {ws rest : List Word} {i : Instr}
    (h : decodeF3 k ws = .ok (i, rest)) : ∃ a b c, i = k a b c ∧ ws = a.toWord :: b.toWord :: c.toWord :: rest := by
  rcases htake : takeOperand ws with e | ⟨a, ws'⟩
  · simp [decodeF3, htake] at h
  · rw [decodeF3, htake] at h
    obtain ⟨b, c, rfl, rfl⟩ := decodeF2_ok h
    exact ⟨a, b, c, rfl, takeOperand_ok htake⟩

/-! ### The statements -/

/-- Settles O1: the opcode word selects the format, and each format reads back the operand words written for it. -/
theorem decodeOfEncodeIsTheInstruction : Obligations.DecodeOfEncodeIsTheInstruction := by
  unfold Obligations.DecodeOfEncodeIsTheInstruction
  intro i rest
  cases i with
  | halt | ret | nop => rfl
  | push a | pop a | jmp a | call a | out a | in_ a => exact decodeF1_toWord _ a rest
  | set a b | jt a b | jf a b | not a b | rmem a b | wmem a b => exact decodeF2_toWord _ a b rest
  | eq a b c | gt a b c | add a b c | mult a b c | mod a b c | and a b c | or a b c => exact decodeF3_toWord _ a b c rest

/-- What a successful decoding has read: the opcode number of its instruction, then its operand words (R74). -/
theorem decode_ok {op : Word} {ws rest : List Word} {i : Instr} (h : decode op ws = .ok (i, rest)) :
    i.opcode = op.toNat ∧ ws = i.operandWords ++ rest := by
  unfold decode at h
  generalize op.toNat = n at h ⊢
  match n, h with
  | 0, h | 18, h | 21, h =>
    cases h
    exact ⟨rfl, rfl⟩
  | 2, h | 3, h | 6, h | 17, h | 19, h | 20, h =>
    obtain ⟨a, rfl, rfl⟩ := decodeF1_ok h
    exact ⟨rfl, rfl⟩
  | 1, h | 7, h | 8, h | 14, h | 15, h | 16, h =>
    obtain ⟨a, b, rfl, rfl⟩ := decodeF2_ok h
    exact ⟨rfl, rfl⟩
  | 4, h | 5, h | 9, h | 10, h | 11, h | 12, h | 13, h =>
    obtain ⟨a, b, c, rfl, rfl⟩ := decodeF3_ok h
    exact ⟨rfl, rfl⟩
  | n + 22, h => cases h

/-- Settles O2: `decode_ok` gives the opcode number and the operand words, and the number gives the opcode word. -/
theorem decodeAcceptsOnlyEncodings : Obligations.DecodeAcceptsOnlyEncodings := by
  unfold Obligations.DecodeAcceptsOnlyEncodings
  intro op ws rest i h
  obtain ⟨hop, rfl⟩ := decode_ok h
  simp [encode, Instr.opcodeWord, hop]

/-- Settles O3: each of the seven is the encoding of its instruction, so it decodes to it by O1. -/
theorem sampleWordsDecode : Obligations.SampleWordsDecode := by
  unfold Obligations.SampleWordsDecode
  have roundTrip := fun i => decodeOfEncodeIsTheInstruction i []
  exact ⟨roundTrip .halt, roundTrip (.set (.reg 0) (.lit 2)), roundTrip (.eq (.reg 3) (.reg 2) (.lit 65)),
    roundTrip (.jt (.reg 0) (.lit 3)), roundTrip (.add (.reg 0) (.reg 0) (.lit 1)),
    roundTrip (.wmem (.lit 30000) (.reg 0)), roundTrip (.in_ (.reg 0))⟩

/-- Settles O4: the three classes of `Operand.ofWord`; a literal's 15 bits hold its whole word. -/
theorem operandWordClasses : Obligations.OperandWordClasses := by
  unfold Obligations.OperandWordClasses
  intro w
  refine ⟨fun hlit => ⟨_, Operand.ofWord_lit w hlit, ?_⟩, Operand.ofWord_reg w, Operand.ofWord_illegal w⟩
  simp [Nat.mod_eq_of_lt hlit]

end Sys2Proof
end

section
/-! The machine's invariant (10_state.md, 70_reset_and_hazards.md). A step is one of the cases of `step_cases`, a host
move one of `hostMove_cases`; each is an update that keeps the invariant, by a lemma of its own. -/

namespace Sys2Proof.Machine
open Sys2Proof

/-- Settles O50: at reset memory, stack and OUT are empty, registers and `pc` are 0, and no run has begun. -/
theorem resetMeetsTheInvariant : Obligations.ResetMeetsTheInvariant := by
  unfold Obligations.ResetMeetsTheInvariant
  intro c
  have hregs : ∀ r, (State.resetWith c).readReg r = 0 := by simp [State.readReg, State.resetWith]
  have hdepth : (State.resetWith c).depthFits = true := by simp [State.depthFits, State.resetWith]
  exact
    { memory := Memory.wf_nil
      depth := hdepth
      loaded := fun hrun => absurd rfl hrun
      unloaded := fun _ => ⟨rfl, rfl⟩
      launch := fun _ => ⟨hregs, rfl, rfl, rfl⟩
      exhausted := nofun
      faulted := nofun
      onlyFaulted := fun hfault => absurd rfl hfault }

/-! ### The stack stays within its capacity (R29, R93) -/

theorem State.depthFits_iff (s : State) :
    s.depthFits = true ↔ ∀ n, s.config.stackCapacity = some n → s.stack.length ≤ n := by
  simp [State.depthFits, Option.all_eq_true]

/-- A push is made below the capacity and a pop shortens the stack, so a completion keeps the depth. -/
theorem Completed.depthFits {i : Instr} {s t : State} (h : Completed i s t) (hs : s.depthFits = true) :
    t.depthFits = true := by
  rw [State.depthFits_iff] at hs ⊢
  intro n hn
  rw [h.config] at hn
  have hfits := hs n hn
  rcases h.stack with hsame | ⟨v, hroom, hpush⟩ | ⟨v, hpop⟩
  · rwa [hsame]
  · have hlt : ¬ n ≤ s.stack.length := fun hfull =>
      Bool.eq_false_iff.1 hroom ((State.stackFull_iff s).2 ⟨n, hn, hfull⟩)
    rw [hpush, List.length_append, List.length_singleton]
    omega
  · rw [hpop, List.length_append] at hfits
    omega

/-! ### A running engine (R31, R32) -/

/-- Only a faulted run, or one freed after, has a fault reason. -/
theorem State.Inv.fault_eq_none {s : State} (hs : s.Inv) (hfaulted : s.run ≠ .faulted) (hreleased : s.run ≠ .released) :
    s.fault = none := by
  by_contra hfault
  rcases hs.onlyFaulted hfault with hrun | hrun
  · exact hfaulted hrun
  · exact hreleased hrun

/-- A running engine is loaded. -/
theorem State.Inv.loaded_of_running {s : State} (hs : s.Inv) (hrun : s.run = .running) : s.loaded = true :=
  hs.loaded (by simp [hrun])

/-- What has to be shown of a state in which a run goes on or has come to a clean stop (R104). -/
theorem State.Inv.of_noFault {t : State} (hmem : t.mem.wf) (hdepth : t.depthFits = true) (hloaded : t.loaded = true)
    (hfault : t.fault = none)
    (hrun : t.run = .running ∨ t.run = .halted ∨ t.run = .exhausted ∧ t.psize.val ≤ t.pc.toNat) : t.Inv where
  memory := hmem
  depth := hdepth
  loaded _ := hloaded
  unloaded h := by simp [hloaded] at h
  launch h := by simp [h] at hrun
  exhausted h := by simpa [h] using hrun
  faulted h := by simp [h] at hrun
  onlyFaulted h := absurd hfault h

theorem State.Inv.exhaust {s : State} (hs : s.Inv) (hrun : s.run = .running) (hpc : s.psize.val ≤ s.pc.toNat) :
    (s.setRun .exhausted).Inv :=
  .of_noFault hs.memory hs.depth (hs.loaded_of_running hrun) (hs.fault_eq_none (by simp [hrun]) (by simp [hrun]))
    (.inr (.inr ⟨rfl, hpc⟩))

theorem State.Inv.raise {s : State} (hs : s.Inv) (hrun : s.run = .running) (r : Fault) : (s.raise r).Inv where
  memory := hs.memory
  depth := hs.depth
  loaded _ := hs.loaded_of_running hrun
  unloaded := hs.unloaded
  launch := nofun
  exhausted := nofun
  faulted _ := nofun
  onlyFaulted _ := .inl rfl

theorem State.Inv.completed {i : Instr} {s t : State} (hs : s.Inv) (hrun : s.run = .running) (h : Completed i s t) :
    t.Inv := by
  have hmem : t.mem.wf := by
    rcases h.mem with hsame | ⟨a, v, ha, hwrite⟩
    · rw [hsame]
      exact hs.memory
    · rw [hwrite]
      exact Memory.wf_writeWord _ a v hs.memory ha
  have hloaded : t.loaded = true := h.loaded.trans (hs.loaded_of_running hrun)
  have hfault : t.fault = none := h.fault.trans (hs.fault_eq_none (by simp [hrun]) (by simp [hrun]))
  have hgoesOn : t.run = .running ∨ t.run = .halted := h.run.imp (·.trans hrun) And.right
  exact .of_noFault hmem (h.depthFits hs.depth) hloaded hfault (hgoesOn.imp_right .inl)

theorem State.Inv.step {s t : State} (hs : s.Inv) (h : step s = .next t) : t.Inv := by
  rcases step_cases h with ⟨-, -, rfl⟩ | ⟨hrun, hpc, rfl⟩ | ⟨hrun, -, r, -, rfl⟩ | ⟨hrun, -, i, -, hexec⟩
  · exact hs
  · exact hs.exhaust hrun hpc
  · exact hs.raise hrun r
  · rcases exec_cases hexec with ⟨r, -, rfl⟩ | hdone
    · exact hs.raise hrun r
    · exact hs.completed hrun hdone

/-! ### The host's moves (R211 to R218) -/

/-- TRACE and INP take no part in the invariant. -/
theorem State.Inv.rejectLoad {s : State} (hs : s.Inv) (e : LoadError) : (s.rejectLoad e).Inv :=
  ⟨hs.memory, hs.depth, hs.loaded, hs.unloaded, hs.launch, hs.exhausted, hs.faulted, hs.onlyFaulted⟩

theorem State.Inv.setInp {s : State} (hs : s.Inv) (bs : List Byte) : (s.setInp bs).Inv :=
  ⟨hs.memory, hs.depth, hs.loaded, hs.unloaded, hs.launch, hs.exhausted, hs.faulted, hs.onlyFaulted⟩

theorem State.Inv.loadImage {s : State} (hs : s.Inv) {bytes : List Byte} (hlen : bytes.length ≤ 65536)
    (hidle : s.run = .idle) : (s.loadImage bytes).Inv where
  memory := s.wf_loadImage bytes hlen
  depth := hs.depth
  loaded _ := rfl
  unloaded := nofun
  launch := hs.launch
  exhausted h := by cases hidle.symm.trans h
  faulted := hs.faulted
  onlyFaulted := hs.onlyFaulted

theorem State.Inv.execute {s : State} (hs : s.Inv) (hidle : s.run = .idle) (hloaded : s.loaded = true) :
    (s.setRun .running).Inv :=
  .of_noFault hs.memory hs.depth hloaded (hs.fault_eq_none (by simp [hidle]) (by simp [hidle])) (.inl rfl)

theorem State.Inv.free {s : State} (hs : s.Inv) (hrun : s.run ≠ .idle) : (s.setRun .released).Inv where
  memory := hs.memory
  depth := hs.depth
  loaded _ := hs.loaded hrun
  unloaded := hs.unloaded
  launch := nofun
  exhausted := nofun
  faulted := nofun
  onlyFaulted _ := .inr rfl

theorem State.Inv.hostMove {m : HostMove} {s t : State} (hs : s.Inv) (h : hostMove m s = .next t) : t.Inv := by
  rcases hostMove_cases h with ⟨b, e, -, -, -, rfl⟩ | ⟨b, -, hidle, -, hlen, -, -, rfl⟩ | ⟨-, hidle, hloaded, rfl⟩ |
    ⟨b, -, -, rfl⟩ | ⟨-, hended, rfl⟩
  · exact hs.rejectLoad e
  · exact hs.loadImage hlen hidle
  · exact hs.execute hidle hloaded
  · exact hs.setInp _
  · exact hs.free fun hidle => by simp [hidle] at hended

/-- Settles O49: a move is a step of the engine or a move of the host, and both keep the invariant. -/
theorem movesKeepTheInvariant : Obligations.MovesKeepTheInvariant := by
  unfold Obligations.MovesKeepTheInvariant
  intro m s t hs h
  cases m with
  | none => exact hs.step h
  | some m => exact hs.hostMove h

end Sys2Proof.Machine
end

section
/-! The instruction cycle (40_cycle_and_operands.md R96 to R100). What the fetch answers follows from `decode_ok` and
O1, since `State.wordsFrom` is a list of the cells it names; `step_of_fetch_ok` and `step_of_fetch_error` turn each
answer of the fetch into a step. -/

namespace Sys2Proof.Machine
open Sys2Proof

/-! ### The words the fetch reads are the cells after `pc` -/

theorem State.getElem_wordsFrom {s : State} {a n k : Nat} (h : k < (s.wordsFrom a n).length) :
    (s.wordsFrom a n)[k] = s.readCell (a + k) := by
  induction n generalizing a k with
  | zero => exact absurd h (Nat.not_lt_zero k)
  | succ n ih =>
    by_cases hin : a < s.psize.val
    · simp only [s.wordsFrom_inside a n hin] at h ⊢
      cases k with
      | zero => rfl
      | succ k =>
        rw [List.getElem_cons_succ, ih, Nat.add_right_comm, Nat.add_assoc]
    · simp [s.wordsFrom_outside a (n + 1) (by omega)] at h

/-- Words that stand in memory inside the image are the first words read there. -/
theorem State.wordsFrom_eq_append {s : State} {ws : List Word} {a : Nat} (m : Nat) (hin : a + ws.length ≤ s.psize.val)
    (hcells : ∀ (k : Nat) (h : k < ws.length), s.readCell (a + k) = ws[k]) :
    s.wordsFrom a (ws.length + m) = ws ++ s.wordsFrom (a + ws.length) m := by
  induction ws generalizing a with
  | nil => simp
  | cons w ws ih =>
    rw [List.length_cons] at hin
    have hfirst : s.readCell a = w := hcells 0 (by simp)
    have hrest : ∀ (k : Nat) (h : k < ws.length), s.readCell (a + 1 + k) = ws[k] := fun k hk => by
      rw [Nat.add_right_comm, Nat.add_assoc]
      exact hcells (k + 1) (by simpa using hk)
    rw [List.length_cons, Nat.add_right_comm, s.wordsFrom_inside a _ (by omega), hfirst, ih (by omega) hrest,
      Nat.add_right_comm, Nat.add_assoc, List.cons_append]

/-! ### What the fetch answers -/

theorem State.fetch_of_decode {s : State} {i : Instr} {rest : List Word}
    (h : decode (s.readCell s.pc.toNat) (s.wordsFrom (s.pc.toNat + 1) 3) = .ok (i, rest)) : s.fetch = .ok i := by
  simp [State.fetch, h]

theorem State.decode_of_fetch {s : State} {i : Instr} (h : s.fetch = .ok i) :
    ∃ rest, decode (s.readCell s.pc.toNat) (s.wordsFrom (s.pc.toNat + 1) 3) = .ok (i, rest) := by
  unfold State.fetch at h
  split at h
  · cases h
  next j rest hdecode =>
    cases h
    exact ⟨rest, hdecode⟩

/-- A fetched instruction has the opcode and the operand words that stand from `pc` on (R98). -/
theorem State.words_of_fetch {s : State} {i : Instr} (h : s.fetch = .ok i) :
    i.opcode = s.opcodeAtPc ∧
      ∀ (k : Nat) (hk : k < i.operandWords.length), i.operandWords[k] = s.readCell (s.pc.toNat + 1 + k) := by
  obtain ⟨rest, hdecode⟩ := State.decode_of_fetch h
  obtain ⟨hop, hwords⟩ := decode_ok hdecode
  refine ⟨hop, fun k hk => ?_⟩
  have hlen : k < (s.wordsFrom (s.pc.toNat + 1) 3).length := by
    rw [hwords, List.length_append]
    omega
  rw [← State.getElem_wordsFrom hlen]
  simp [hwords, hk]

/-- The encoding of an instruction that stands at `pc`, inside the image, is fetched as that instruction. -/
theorem State.fetch_of_encode {s : State} {i : Instr} (hin : s.pc.toNat + (encode i).length ≤ s.psize.val)
    (hcells : ∀ (k : Nat) (h : k < (encode i).length), s.readCell (s.pc.toNat + k) = (encode i)[k]) :
    s.fetch = .ok i := by
  have hop : s.readCell s.pc.toNat = i.opcodeWord := hcells 0 (by simp [encode])
  have hoperands : ∀ (k : Nat) (h : k < i.operandWords.length),
      s.readCell (s.pc.toNat + 1 + k) = i.operandWords[k] := fun k hk => by
    rw [Nat.add_right_comm, Nat.add_assoc]
    exact hcells (k + 1) (by simpa [encode] using hk)
  have hlen : i.operandWords.length ≤ 3 := i.operandWords_length ▸ arityOf_le i.opcode
  obtain ⟨m, hm⟩ : ∃ m, 3 = i.operandWords.length + m := ⟨3 - i.operandWords.length, by omega⟩
  rw [encode, List.length_cons] at hin
  have hread := State.wordsFrom_eq_append m (by omega) hoperands
  apply State.fetch_of_decode (rest := s.wordsFrom (s.pc.toNat + 1 + i.operandWords.length) m)
  rw [hop, hm, hread]
  exact decodeOfEncodeIsTheInstruction i _

/-! ### The statements -/

/-- Settles O13: outside RUNNING a step answers its state, and after free it is refused. -/
theorem engineMovesOnlyWhileRunning : Obligations.EngineMovesOnlyWhileRunning := by
  unfold Obligations.EngineMovesOnlyWhileRunning
  intro s
  constructor
  · intro hrunning hreleased
    cases hrun : s.run with
    | running => exact absurd hrun hrunning
    | released => exact absurd hrun hreleased
    | idle | halted | exhausted | faulted => simp [step, hrun]
  · intro hrun
    simp [step, hrun]

/-- Settles O9: the loop condition fails, and EXHAUSTED is an end that execute reports as success. -/
theorem exhaustionEndsTheRunCleanly : Obligations.ExhaustionEndsTheRunCleanly := by
  unfold Obligations.ExhaustionEndsTheRunCleanly
  intro s hrun hpc
  exact ⟨step_of_exhausted hrun hpc, rfl⟩

/-- Settles O10: what the words decode to is what is fetched. -/
theorem stepRunsTheDecodedInstruction : Obligations.StepRunsTheDecodedInstruction := by
  unfold Obligations.StepRunsTheDecodedInstruction
  intro s i rest hs hdecode
  exact step_of_fetch_ok hs (State.fetch_of_decode hdecode)

/-- Settles O11: an encoding inside the image is fetched as its instruction, and its opcode word is below PSIZE. -/
theorem encodedInstructionAtPcRuns : Obligations.EncodedInstructionAtPcRuns := by
  unfold Obligations.EncodedInstructionAtPcRuns
  intro s i hrun hin hcells
  have hpc : s.pc.toNat < s.psize.val := by
    rw [encode, List.length_cons] at hin
    omega
  exact step_of_fetch_ok ⟨hrun, hpc⟩ (State.fetch_of_encode hin hcells)

/-- A WMEM below the bound stores at the address itself (R166, decision D4). -/
theorem exec_wmem_inside {a b : Operand} {s : State} (h : (s.value a).toNat < 32768) :
    exec (.wmem a b) s = .next ((s.writeCell (s.value a).toNat (s.value b)).advance 2) := by
  simp [exec, execWmem, State.memWrite, h]

/-- Settles O12: the state after the store holds the encoding at `p` where the statement says so, and O11 applies. -/
theorem storeIsSeenByTheNextFetch : Obligations.StoreIsSeenByTheNextFetch := by
  unfold Obligations.StoreIsSeenByTheNextFetch
  intro s t a b i p hexec haddr hrun hin hcells
  cases (exec_wmem_inside haddr).symm.trans hexec
  refine encodedInstructionAtPcRuns _ i hrun hin fun k hk => ?_
  rw [hcells k hk, State.readCell_setPc, State.readCell_advance, State.setPc_pc]
  split
  next hhit => rw [hhit, State.readCell_writeCell_same]
  next hmiss => exact s.readCell_writeCell_other _ _ _ hmiss

/-- `OperandOverflow` is no handler's fault (R199). -/
theorem handlerFault_ne_operandOverflow (i : Instr) : handlerFault i ≠ some .operandOverflow := by
  cases i <;> simp [handlerFault]

/-- Settles O6: the operand words before the illegal one are legal, so it is the first that raises a fault; and a
handler's fault is its own, never `OperandOverflow`. -/
theorem illegalOperandEndsTheRun : Obligations.IllegalOperandEndsTheRun := by
  unfold Obligations.IllegalOperandEndsTheRun
  constructor
  · intro s n hs hop hn hok hin hillegal
    obtain ⟨m, hm⟩ : ∃ m, arityOf s.opcodeAtPc = n + (m + 1) := ⟨arityOf s.opcodeAtPc - n - 1, by omega⟩
    apply endsInFault_of_fetch_error hs
    rw [State.fetch_error_iff_operandFault hop, hm, State.operandFault_after_legal hok,
      State.operandFault_illegal hin hillegal]
  · intro i s t hexec hs
    rcases exec_cases hexec with ⟨r, hr, rfl⟩ | hdone
    · rw [State.raise_fault, ← hr]
      exact handlerFault_ne_operandOverflow i
    · rwa [hdone.fault]

/-- Settles O8: an unknown opcode is met first, then the operand words in order; a fetch that meets no fault gives
the instruction whose words stand at `pc`. -/
theorem checksComeInReadingOrderBeforeTheHandler : Obligations.ChecksComeInReadingOrderBeforeTheHandler := by
  unfold Obligations.ChecksComeInReadingOrderBeforeTheHandler
  intro s hs
  split
  next hop => exact step_of_fetch_error hs (State.fetch_of_unknown_opcode hop)
  next hop =>
    have hfault := State.fetch_error_iff_operandFault (s := s) (Nat.not_le.1 hop)
    split
    next r hr => exact step_of_fetch_error hs ((hfault r).2 hr)
    next hnone =>
      cases hfetch : s.fetch with
      | error r => simp [(hfault r).1 hfetch] at hnone
      | ok i =>
        obtain ⟨hopcode, hoperands⟩ := State.words_of_fetch hfetch
        exact ⟨i, hopcode, hoperands, step_of_fetch_ok hs hfetch⟩

end Sys2Proof.Machine
end

section
/-! The end of a run (40_cycle_and_operands.md R104) and faults (60_exceptions.md R185 to R199). A handler leaves RUN as
it was, halts, or faults; `step_of_running_cases` says it of the whole step, with the reason for each. -/

namespace Sys2Proof.Machine
open Sys2Proof

/-! ### How a handler and a step leave the run -/

/-- From a run that has not faulted, a handler that ends in FAULTED has raised its own fault and done nothing else. -/
theorem exec_faulted {i : Instr} {s t : State} (hs : s.run ≠ .faulted) (h : exec i s = .next t)
    (ht : t.run = .faulted) : ∃ r, handlerFault i = some r ∧ t = s.raise r := by
  rcases exec_cases h with hfault | hdone
  · exact hfault
  · rcases hdone.run with hsame | ⟨-, hhalted⟩
    · exact absurd (hsame.symm.trans ht) hs
    · cases hhalted.symm.trans ht

/-- A handler faults, halts when it is HALT, or goes on when it is not (R104). -/
theorem exec_run_cases {i : Instr} {s t : State} (hs : s.run = .running) (h : exec i s = .next t) :
    (∃ r, t = s.raise r) ∧ i ≠ .halt ∨ t.run = .halted ∧ i = .halt ∨ t.run = .running ∧ i ≠ .halt := by
  by_cases hi : i = .halt
  · subst hi
    cases h
    exact .inr (.inl ⟨rfl, rfl⟩)
  · rcases exec_cases h with ⟨r, -, hr⟩ | hdone
    · exact .inl ⟨⟨r, hr⟩, hi⟩
    · rcases hdone.run with hsame | ⟨hhalt, -⟩
      · exact .inr (.inr ⟨hsame.trans hs, hi⟩)
      · exact absurd hhalt hi

/-- The four ways a step of a running engine leaves the run (R97, R104). -/
theorem step_of_running_cases {s t : State} (hs : s.run = .running) (h : step s = .next t) :
    s.psize.val ≤ s.pc.toNat ∧ t = s.setRun .exhausted ∨
    s.pc.toNat < s.psize.val ∧
      ((∃ r, t = s.raise r) ∧ s.fetch ≠ .ok .halt ∨ t.run = .halted ∧ s.fetch = .ok .halt ∨
        t.run = .running ∧ s.fetch ≠ .ok .halt) := by
  rcases step_cases h with ⟨hne, -, -⟩ | ⟨-, hpc, ht⟩ | ⟨-, hpc, r, hfetch, ht⟩ | ⟨-, hpc, i, hfetch, hexec⟩
  · exact absurd hs hne
  · exact .inl ⟨hpc, ht⟩
  · exact .inr ⟨hpc, .inl ⟨⟨r, ht⟩, by simp [hfetch]⟩⟩
  · refine .inr ⟨hpc, ?_⟩
    simpa [hfetch] using exec_run_cases hs hexec

/-- A step of a running engine that ends in FAULTED has raised a fault and done nothing else (R187). -/
theorem step_faulted {s t : State} (hs : s.run = .running) (h : step s = .next t) (ht : t.run = .faulted) :
    ∃ r, t = s.raise r := by
  rcases step_of_running_cases hs h with ⟨-, rfl⟩ | ⟨-, ⟨hfault, -⟩ | ⟨hhalted, -⟩ | ⟨hrunning, -⟩⟩
  · cases ht
  · exact hfault
  · cases hhalted.symm.trans ht
  · cases hrunning.symm.trans ht

/-- Ending in a fault, for a step of a running engine, is being FAULTED after it. -/
theorem run_faulted_iff_endsInFault {s t : State} (hs : s.run = .running) (h : step s = .next t) :
    t.run = .faulted ↔ ∃ r, EndsInFault r s (step s) := by
  constructor
  · intro ht
    obtain ⟨r, rfl⟩ := step_faulted hs h ht
    exact ⟨r, _, h, rfl⟩
  · rintro ⟨r, u, hu, hfaulted⟩
    cases h.symm.trans hu
    rw [hfaulted]

/-! ### What execute returns (R104, R214) -/

theorem State.result_of_running {s : State} (h : s.run = .running) : s.result = none := by simp [State.result, h]

theorem State.result_of_cleanStop {s : State} (h : s.cleanStop) : s.result = some .success := by
  rcases h with hrun | hrun <;> simp [State.result, hrun]

theorem State.result_of_faulted {s : State} (h : s.run = .faulted) : s.result = s.fault.map .fault := by
  simp [State.result, h]

/-! ### The statements -/

/-- Settles O14: by `step_of_running_cases` each way of leaving the run has one reason, and by the three rules of
`State.result` each end has its answer. -/
theorem runEndsInExactlyThreeWays : Obligations.RunEndsInExactlyThreeWays := by
  unfold Obligations.RunEndsInExactlyThreeWays
  intro s t hs h
  have hresult : ∀ r, t.run = .faulted → (t.fault = some r ↔ t.result = some (.fault r)) := fun r ht => by
    simp [State.result_of_faulted ht]
  have hends : (t.run = .running ∨ t.run = .halted ∨ t.run = .exhausted ∨ t.run = .faulted) ∧
      (t.run = .halted ↔ s.pc.toNat < s.psize.val ∧ s.fetch = .ok .halt) ∧
      (t.run = .exhausted ↔ s.psize.val ≤ s.pc.toNat) := by
    rcases step_of_running_cases hs h with ⟨hpc, rfl⟩ | ⟨hpc, ⟨⟨r, rfl⟩, hfetch⟩ | ⟨ht, hfetch⟩ | ⟨ht, hfetch⟩⟩
    · simp [hpc]
    · simp [Nat.not_le.2 hpc, hfetch]
    · simp [ht, hpc, hfetch]
    · simp [ht, Nat.not_le.2 hpc, hfetch]
  obtain ⟨hrun, hhalted, hexhausted⟩ := hends
  exact ⟨hrun, hhalted, hexhausted, run_faulted_iff_endsInFault hs h, State.result_of_running,
    State.result_of_cleanStop, hresult⟩

/-- Settles O15: ending in FAULTED is `State.raise`, for a handler and for a step. -/
theorem faultsArePrecise : Obligations.FaultsArePrecise := by
  unfold Obligations.FaultsArePrecise
  refine ⟨fun i s t hs h ht => ?_, fun s t hs h ht => step_faulted hs h ht⟩
  obtain ⟨r, -, hr⟩ := exec_faulted hs h ht
  exact ⟨r, hr⟩

/-- Settles O16: the fault raised is the handler's own, and the state it is raised in shows which. -/
theorem handlersRaiseOnlyTheirOwnFault : Obligations.HandlersRaiseOnlyTheirOwnFault := by
  unfold Obligations.HandlersRaiseOnlyTheirOwnFault
  intro i s r hs h
  obtain ⟨r', hown, hr'⟩ := exec_faulted hs h rfl
  cases congrArg State.fault hr'
  exact hown

/-- No move of the engine or the host is answered after free (R215, R216). -/
theorem act_of_released {s : State} (h : s.run = .released) (m : Option HostMove) :
    act m s = .refused .afterFree := by
  cases m with
  | none => simp [act, step, h]
  | some m => cases m <;> simp [act, hostMove, hostLoad, execute, supplyInput, free, h]

theorem step_of_faulted {s : State} (h : s.run = .faulted) : step s = .next s :=
  (engineMovesOnlyWhileRunning s).1 (by simp [h]) (by simp [h])

/-- A faulted state under any move: only free changes its run state, and nothing its reason (R188). -/
theorem act_of_faulted {m : Option HostMove} {s t : State} (hs : s.run = .faulted) (h : act m s = .next t) :
    (t.run = .faulted ∨ m = some .free) ∧ t.fault = s.fault := by
  cases m with
  | none =>
    cases (step_of_faulted hs).symm.trans h
    exact ⟨.inl hs, rfl⟩
  | some m =>
    rcases hostMove_cases h with ⟨b, e, -, hidle, -⟩ | ⟨b, -, hidle, -⟩ | ⟨-, hidle, -⟩ | ⟨b, -, -, rfl⟩ |
      ⟨rfl, -, rfl⟩
    · cases hidle.symm.trans hs
    · cases hidle.symm.trans hs
    · cases hidle.symm.trans hs
    · exact ⟨.inl hs, rfl⟩
    · exact ⟨.inr rfl, rfl⟩

/-- Settles O17: under the invariant a state with a fault reason is faulted, where `act_of_faulted` applies, or
released, where no move is answered. -/
theorem faultIsFinal : Obligations.FaultIsFinal := by
  unfold Obligations.FaultIsFinal
  refine ⟨fun s => step_of_faulted, fun m s t => act_of_faulted, fun m s t r hs hr h => ?_⟩
  rcases hs.onlyFaulted (by simp [hr]) with hrun | hrun
  · exact (act_of_faulted hrun h).2.trans hr
  · cases (act_of_released hrun m).symm.trans h

end Sys2Proof.Machine
end

section
/-! The 22 instructions (files 41 to 47). A handler that writes a target ends in `writeResult`, whose result, `pc` and
frame are said once in `writeResult_completes`; what remains of such an instruction is the word it computes. -/

namespace Sys2Proof.Machine
open Sys2Proof

/-! ### The end of a handler -/

/-- The end of a handler that falls through (R99), with the address computed. -/
theorem State.advance_eq_setPc (s : State) (n : Nat) : s.advance n = s.setPc (s.pc + BitVec.ofNat 16 (1 + n)) :=
  congrArg s.setPc (s.nextPc_eq n)

/-- The result, the `pc` and the frame of a handler that writes a target (R99, R102). -/
theorem writeResult_completes (a : Operand) (v : Word) (n : Nat) (s : State) :
    ∃ t, writeResult a v n s = .next t ∧ t.readLoc (resolveTarget a) = v ∧
      t.pc = s.pc + BitVec.ofNat 16 (1 + n) ∧ SameBut [resolveTarget a] s t := by
  refine ⟨(s.targetWrite a v).advance n, rfl, s.readLoc_targetWrite a v, ?_, s.sameBut_targetWrite a v⟩
  rw [State.advance_pc, State.nextPc_eq, State.targetWrite_pc]

theorem State.sameBut_writeCell (s : State) (c : Nat) (v : Word) : SameBut [.cell c] s (s.writeCell c v) := by
  have hmem : ∀ k, Location.cell (k / 2) ∉ [Location.cell c] → (s.writeCell c v).mem.readByte k = s.mem.readByte k :=
    fun k hk => Memory.readByte_writeWord_other s.mem c k v fun e => hk (by simp [e])
  exact ⟨⟨fun _ _ => rfl, hmem, rfl, rfl, rfl, rfl, rfl, rfl⟩, rfl, rfl, rfl⟩

/-! ### System (41_system.md) -/

/-- Settles O25: `RUN` and `pc` are what HALT writes. -/
theorem haltStopsCleanly : Obligations.HaltStopsCleanly := by
  unfold Obligations.HaltStopsCleanly
  intro s
  exact congrArg Host.Outcome.next ((s.setRun .halted).advance_eq_setPc 0)

/-- Settles O26: NOP is the end of a handler and nothing else. -/
theorem nopOnlyAdvances : Obligations.NopOnlyAdvances := by
  unfold Obligations.NopOnlyAdvances
  intro s
  exact congrArg Host.Outcome.next (s.advance_eq_setPc 0)

/-! ### Move and stack (42_move_and_stack.md), with the stack's capacity (R93) -/

/-- Settles O27: SET writes its value to its target. -/
theorem setCopiesItsValue : Obligations.SetCopiesItsValue := by
  unfold Obligations.SetCopiesItsValue
  intro a b s
  exact writeResult_completes a (s.value b) 2 s

theorem State.stackFull_eq_false_of_room {s : State}
    (h : s.config.stackCapacity = none ∨ ∃ n, s.config.stackCapacity = some n ∧ s.stack.length < n) :
    s.stackFull = false := by
  refine Bool.eq_false_iff.2 fun hfull => ?_
  obtain ⟨m, hm, hle⟩ := s.stackFull_iff.1 hfull
  rcases h with hnone | ⟨n, hn, hlt⟩
  · cases hnone.symm.trans hm
  · cases hn.symm.trans hm
    omega

theorem State.stackFull_of_capacity_eq_depth {s : State} (h : s.config.stackCapacity = some s.stack.length) :
    s.stackFull = true :=
  s.stackFull_iff.2 ⟨_, h, le_rfl⟩

/-- Settles O22: room and a depth at the capacity are the two answers of `stackFull`. -/
theorem pushAppendsUpToCapacity : Obligations.PushAppendsUpToCapacity := by
  unfold Obligations.PushAppendsUpToCapacity
  intro s v
  exact ⟨fun hcap => s.push_full v (State.stackFull_of_capacity_eq_depth hcap),
    fun hroom => s.push_ok v (State.stackFull_eq_false_of_room hroom)⟩

/-- Settles O28: PUSH is `push`, by O22, and the end of a handler or the fault. -/
theorem pushPutsItsValueOnTop : Obligations.PushPutsItsValueOnTop := by
  unfold Obligations.PushPutsItsValueOnTop
  intro a s
  obtain ⟨hfull, hpush⟩ := pushAppendsUpToCapacity s (s.value a)
  constructor
  · intro hroom
    simp only [exec, execPush, hpush hroom, State.advance_eq_setPc]
    rfl
  · intro hcap
    simp only [exec, execPush, hfull hcap]
    rfl

/-- Settles O29: POP is `pop`, and a target write over the shorter stack or the fault. -/
theorem popMovesTheTopToItsTarget : Obligations.PopMovesTheTopToItsTarget := by
  unfold Obligations.PopMovesTheTopToItsTarget
  constructor
  · intro a s st v hstack
    obtain ⟨t, ht, hval, hpc, hframe, hst, hout, hinp⟩ := writeResult_completes a v 1 (s.setStack st)
    refine ⟨t, ?_, hval, hst, hpc, hframe, hout, hinp⟩
    simp only [exec, execPop, s.pop_concat st v hstack, ht]
  · intro a s hstack
    simp only [exec, execPop, s.pop_nil hstack]
    rfl

/-! ### Compares (43_compare.md) -/

/-- Settles O30: words are equal exactly when their numbers are. -/
theorem eqWritesOneOrZero : Obligations.EqWritesOneOrZero := by
  unfold Obligations.EqWritesOneOrZero
  intro a b c s
  obtain ⟨t, ht, hval, hframe⟩ := writeResult_completes a (truthWord (s.value b = s.value c)) 3 s
  refine ⟨t, ht, ?_, hframe⟩
  simp [hval, truthWord_toNat, BitVec.toNat_inj]

/-- Settles O31: the handler compares the numbers of the words. -/
theorem gtWritesOneOrZero : Obligations.GtWritesOneOrZero := by
  unfold Obligations.GtWritesOneOrZero
  intro a b c s
  obtain ⟨t, ht, hval, hframe⟩ := writeResult_completes a (truthWord ((s.value c).toNat < (s.value b).toNat)) 3 s
  refine ⟨t, ht, ?_, hframe⟩
  simp [hval, truthWord_toNat]

/-! ### Control transfer (44_control_transfer.md) -/

/-- Settles O32: a change of `pc` alone. -/
theorem jmpLoadsPc : Obligations.JmpLoadsPc := by
  unfold Obligations.JmpLoadsPc
  intro a s
  rfl

/-- Settles O33: the test of the handler is the negated test of the statement. -/
theorem jtJumpsWhenNonZero : Obligations.JtJumpsWhenNonZero := by
  unfold Obligations.JtJumpsWhenNonZero
  intro a b s
  by_cases hzero : (s.value a).toNat = 0 <;>
    simp only [exec, execJt, isZero_iff, hzero, State.advance_eq_setPc, ne_eq, not_true, not_false_eq_true, if_true, if_false] <;>
    rfl

/-- Settles O34: the test of the handler is that of the statement. -/
theorem jfJumpsWhenZero : Obligations.JfJumpsWhenZero := by
  unfold Obligations.JfJumpsWhenZero
  intro a b s
  by_cases hzero : (s.value a).toNat = 0 <;>
    simp only [exec, execJf, isZero_iff, hzero, State.advance_eq_setPc, if_true, if_false] <;>
    rfl

/-- The return address of a CALL (R143). -/
theorem State.nextPc_one (s : State) : s.nextPc 1 = s.pc + 2 := s.nextPc_eq 1

/-- Settles O35: CALL is `push`, by O22, and a jump or the fault. -/
theorem callPushesTheReturnAddress : Obligations.CallPushesTheReturnAddress := by
  unfold Obligations.CallPushesTheReturnAddress
  intro a s
  obtain ⟨hfull, hpush⟩ := pushAppendsUpToCapacity s (s.pc + 2)
  constructor
  · intro hroom
    simp only [exec, execCall, s.nextPc_one, hpush hroom]
    rfl
  · intro hcap
    simp only [exec, execCall, s.nextPc_one, hfull hcap]
    rfl

/-- Settles O36: RET is `pop`, and a jump or the fault. -/
theorem retPopsIntoPc : Obligations.RetPopsIntoPc := by
  unfold Obligations.RetPopsIntoPc
  constructor
  · intro s st v hstack
    simp only [exec, execRet, s.pop_concat st v hstack]
    rfl
  · intro s hstack
    simp only [exec, execRet, s.pop_nil hstack]
    rfl

/-- Settles O37: a CALL that did not fault has pushed its return address, which RET pops, by O36. -/
theorem callThenRetResumesAfterTheCall : Obligations.CallThenRetResumesAfterTheCall := by
  unfold Obligations.CallThenRetResumesAfterTheCall
  intro a s t u _ hcall ht hstack
  refine retPopsIntoPc.1 u s.stack (s.pc + 2) ?_
  rcases s.push_cases (s.nextPc 1) with ⟨-, hpush⟩ | ⟨-, hpush⟩ <;> simp only [exec, execCall, hpush] at hcall <;>
    cases hcall
  · cases ht
  · rw [hstack, State.setPc_stack, State.setStack_stack, s.nextPc_one]

/-! ### ALU (45_alu.md): every result is stored modulo 32768 (R150) -/

/-- Settles O38: the sum, reduced. -/
theorem addStoresTheSumModulo32768 : Obligations.AddStoresTheSumModulo32768 := by
  unfold Obligations.AddStoresTheSumModulo32768
  intro a b c s
  obtain ⟨t, ht, hval, hframe⟩ := writeResult_completes a (reduced ((s.value b).toNat + (s.value c).toNat)) 3 s
  exact ⟨t, ht, hval ▸ reduced_toNat _, hframe⟩

/-- Settles O39: the product, reduced. -/
theorem multStoresTheProductModulo32768 : Obligations.MultStoresTheProductModulo32768 := by
  unfold Obligations.MultStoresTheProductModulo32768
  intro a b c s
  obtain ⟨t, ht, hval, hframe⟩ := writeResult_completes a (reduced ((s.value b).toNat * (s.value c).toNat)) 3 s
  exact ⟨t, ht, hval ▸ reduced_toNat _, hframe⟩

/-- Settles O40: the remainder, reduced, or the fault when the divisor is zero. -/
theorem modStoresTheRemainderModulo32768 : Obligations.ModStoresTheRemainderModulo32768 := by
  unfold Obligations.ModStoresTheRemainderModulo32768
  intro a b c s
  constructor
  · intro hdivisor
    obtain ⟨t, ht, hval, hframe⟩ := writeResult_completes a (reduced ((s.value b).toNat % (s.value c).toNat)) 3 s
    refine ⟨t, ?_, hval ▸ reduced_toNat _, hframe⟩
    simp only [exec, execMod, isZero_iff, hdivisor, if_false, ht]
  · intro hdivisor
    simp only [exec, execMod, isZero_iff, hdivisor, if_true]
    rfl

/-- Reduction of a word keeps its low 15 bits and clears bit 15. -/
theorem getLsbD_reduced_toNat (w : Word) (k : Nat) : (reduced w.toNat).getLsbD k = (decide (k < 15) && w.getLsbD k) := by
  have hbits : (w.toNat % 32768).testBit k = (decide (k < 15) && w.getLsbD k) := Nat.testBit_mod_two_pow w.toNat 15 k
  rw [reduced, BitVec.getLsbD_ofNat, hbits]
  by_cases hk : k < 15
  · have hk' : k < 16 := by omega
    simp [hk, hk']
  · simp [hk]

/-- Settles O41: the conjunction of the words, reduced. -/
theorem andIsBitwiseOnFifteenBits : Obligations.AndIsBitwiseOnFifteenBits := by
  unfold Obligations.AndIsBitwiseOnFifteenBits
  intro a b c s
  obtain ⟨t, ht, hval, hframe⟩ := writeResult_completes a (reduced (s.value b &&& s.value c).toNat) 3 s
  refine ⟨t, ht, fun k => ?_, hframe⟩
  rw [hval, getLsbD_reduced_toNat, BitVec.getLsbD_and]

/-- Settles O42: the disjunction of the words, reduced. -/
theorem orIsBitwiseOnFifteenBits : Obligations.OrIsBitwiseOnFifteenBits := by
  unfold Obligations.OrIsBitwiseOnFifteenBits
  intro a b c s
  obtain ⟨t, ht, hval, hframe⟩ := writeResult_completes a (reduced (s.value b ||| s.value c).toNat) 3 s
  refine ⟨t, ht, fun k => ?_, hframe⟩
  rw [hval, getLsbD_reduced_toNat, BitVec.getLsbD_or]

/-- The complement masked to 15 bits, as a number (R156). -/
theorem toNat_not_and_mask (w : Word) : (~~~ w &&& 0x7FFF).toNat = 32767 - w.toNat % 32768 := by
  have hlt := w.isLt
  calc (~~~ w &&& 0x7FFF).toNat
      = (65536 - 1 - w.toNat) &&& (2 ^ 15 - 1) := by rw [BitVec.toNat_and, BitVec.toNat_not]; rfl
    _ = (65536 - 1 - w.toNat) % 2 ^ 15 := Nat.and_two_pow_sub_one_eq_mod _ 15
    _ = 32767 - w.toNat % 32768 := by omega

/-- Settles O43: the masked complement. -/
theorem notIsTheFifteenBitComplement : Obligations.NotIsTheFifteenBitComplement := by
  unfold Obligations.NotIsTheFifteenBitComplement
  intro a b s
  obtain ⟨t, ht, hval, hframe⟩ := writeResult_completes a (~~~ s.value b &&& 0x7FFF) 2 s
  exact ⟨t, ht, hval ▸ toNat_not_and_mask _, hframe⟩

/-! ### Memory access (46_memory_access.md) -/

/-- Settles O44: RMEM is `memRead`, by O20, and a target write or the fault. -/
theorem rmemLoadsOneWord : Obligations.RmemLoadsOneWord := by
  unfold Obligations.RmemLoadsOneWord
  intro a b s
  obtain ⟨houtside, hinside⟩ := memReadIsBoundedByCapacity s (s.value b)
  constructor
  · intro haddr
    obtain ⟨t, ht, hval, hframe⟩ := writeResult_completes a (s.readCell (s.value b).toNat) 2 s
    refine ⟨t, ?_, hval, hframe⟩
    simp only [exec, execRmem, hinside haddr, ht]
  · intro haddr
    simp only [exec, execRmem, houtside haddr]
    rfl

/-- Settles O45: WMEM stores at its address (`exec_wmem_inside`), or takes the fault of `memWrite`, by O21. -/
theorem wmemStoresOneWord : Obligations.WmemStoresOneWord := by
  unfold Obligations.WmemStoresOneWord
  intro a b s
  constructor
  · intro haddr
    refine ⟨_, exec_wmem_inside haddr, ?_, ?_, s.sameBut_writeCell _ _⟩
    · exact s.readCell_writeCell_same _ _
    · exact congrArg State.pc ((s.writeCell _ _).advance_eq_setPc 2)
  · intro haddr
    simp only [exec, execWmem, (memWriteStoresOneWholeWord s (s.value a) (s.value b)).1 haddr]
    rfl

/-! ### The ports (47_io.md) -/

/-- Settles O46: the word is recorded whole, and its low byte is the one presented. -/
theorem outAppendsItsValue : Obligations.OutAppendsItsValue := by
  unfold Obligations.OutAppendsItsValue
  intro a s
  refine ⟨_, rfl, (s.outValue (s.value a)).advance_eq_setPc 1, lowByte (s.value a), ?_, lowByte_toNat _⟩
  simp [State.presented]

/-- A byte zero-extended to a word has the same number (R172). -/
theorem toNat_ofNat_byte (ch : Byte) : (BitVec.ofNat 16 ch.toNat).toNat = ch.toNat := by
  have hlt := ch.isLt
  rw [BitVec.toNat_ofNat, Nat.mod_eq_of_lt (by omega)]

/-- Settles O47: with a byte IN is a target write over the shorter INP, and without one it answers its state. -/
theorem inTakesTheNextByteOrHolds : Obligations.InTakesTheNextByteOrHolds := by
  unfold Obligations.InTakesTheNextByteOrHolds
  constructor
  · intro a s ch rest hinp
    obtain ⟨t, ht, hval, hpc, hframe, hstack, hout, hrest⟩ :=
      writeResult_completes a (BitVec.ofNat 16 ch.toNat) 1 (s.setInp rest)
    refine ⟨t, ?_, hval ▸ toNat_ofNat_byte ch, hrest, hpc, hframe, hstack, hout⟩
    simp only [exec, execIn, hinp, ht]
  · intro a s hinp
    simp only [exec, execIn, hinp]

end Sys2Proof.Machine
end

section
/-! What a step leaves alone, and what it does not depend on. The streams move only by their instructions (10_state.md
R33), and no step writes PSIZE, LOADED or TRACE (R26, R30, R34). That no handler reads PSIZE and no step reads OUT or
TRACE is one fact, `exec_related`: where two states agree on all that handlers read, and every update keeps them
related, every handler does. -/

namespace Sys2Proof.Machine
open Sys2Proof

/-! ### The streams -/

/-- In a step of the engine only a fetched OUT writes OUT, and only a fetched IN takes from INP. -/
theorem streams_of_step {s t : State} (h : step s = .next t) :
    (t.out = s.out ∨ ∃ a, s.fetch = .ok (.out a) ∧ t.out = s.out ++ [s.value a]) ∧
    (t.inp = s.inp ∨ ∃ a ch, s.fetch = .ok (.in_ a) ∧ s.inp = ch :: t.inp) := by
  rcases step_cases h with ⟨-, -, rfl⟩ | ⟨-, -, rfl⟩ | ⟨-, -, r, -, rfl⟩ | ⟨-, -, i, hfetch, hexec⟩
  · exact ⟨.inl rfl, .inl rfl⟩
  · exact ⟨.inl rfl, .inl rfl⟩
  · exact ⟨.inl rfl, .inl rfl⟩
  · rcases exec_cases hexec with ⟨r, -, rfl⟩ | hdone
    · exact ⟨.inl rfl, .inl rfl⟩
    · refine ⟨hdone.out.imp_right ?_, hdone.inp.imp_right ?_⟩
      · rintro ⟨a, rfl, hout⟩
        exact ⟨a, hfetch, hout⟩
      · rintro ⟨a, ch, rfl, hinp⟩
        exact ⟨a, ch, hfetch, hinp⟩

/-- Of the host's moves only the supply of a byte touches a stream. -/
theorem streams_of_hostMove {m : HostMove} {s t : State} (h : hostMove m s = .next t) :
    t.out = s.out ∧ (t.inp = s.inp ∨ ∃ b, m = .supply b ∧ t.inp = s.inp ++ [b]) := by
  rcases hostMove_cases h with ⟨b, e, -, -, -, rfl⟩ | ⟨b, -, -, -, -, -, -, rfl⟩ | ⟨-, -, -, rfl⟩ | ⟨b, hm, -, rfl⟩ |
    ⟨-, -, rfl⟩
  · exact ⟨rfl, .inl rfl⟩
  · exact ⟨rfl, .inl rfl⟩
  · exact ⟨rfl, .inl rfl⟩
  · exact ⟨rfl, .inr ⟨b, hm, rfl⟩⟩
  · exact ⟨rfl, .inl rfl⟩

/-- Settles O48: a step by `streams_of_step`, a host move by `streams_of_hostMove`. -/
theorem streamsMoveOnlyByOutAndIn : Obligations.StreamsMoveOnlyByOutAndIn := by
  unfold Obligations.StreamsMoveOnlyByOutAndIn
  exact ⟨fun s t => streams_of_step, fun m s t => streams_of_hostMove⟩

/-! ### The fields no step writes -/

theorem controlFields_of_step {s t : State} (h : step s = .next t) :
    t.psize = s.psize ∧ t.loaded = s.loaded ∧ t.trace = s.trace ∧ t.config = s.config := by
  rcases step_cases h with ⟨-, -, rfl⟩ | ⟨-, -, rfl⟩ | ⟨-, -, r, -, rfl⟩ | ⟨-, -, i, -, hexec⟩
  · exact ⟨rfl, rfl, rfl, rfl⟩
  · exact ⟨rfl, rfl, rfl, rfl⟩
  · exact ⟨rfl, rfl, rfl, rfl⟩
  · rcases exec_cases hexec with ⟨r, -, rfl⟩ | hdone
    · exact ⟨rfl, rfl, rfl, rfl⟩
    · exact ⟨hdone.psize, hdone.loaded, hdone.trace, hdone.config⟩

/-! ### Related states run to related states -/

/-- `R` relates states that agree on all a handler reads, and every update of a handler keeps it. -/
structure KeptByUpdates (R : State → State → Prop) : Prop where
  regs {s s'} : R s s' → s'.regs = s.regs
  pc {s s'} : R s s' → s'.pc = s.pc
  mem {s s'} : R s s' → s'.mem = s.mem
  stack {s s'} : R s s' → s'.stack = s.stack
  inp {s s'} : R s s' → s'.inp = s.inp
  config {s s'} : R s s' → s'.config = s.config
  writeReg {s s'} (r : Fin 8) (v : Word) : R s s' → R (s.writeReg r v) (s'.writeReg r v)
  writeCell {s s'} (c : Nat) (v : Word) : R s s' → R (s.writeCell c v) (s'.writeCell c v)
  setPc {s s'} (p : Word) : R s s' → R (s.setPc p) (s'.setPc p)
  setStack {s s'} (st : List Word) : R s s' → R (s.setStack st) (s'.setStack st)
  outValue {s s'} (v : Word) : R s s' → R (s.outValue v) (s'.outValue v)
  setInp {s s'} (bs : List Byte) : R s s' → R (s.setInp bs) (s'.setInp bs)
  setRun {s s'} (r : RunState) : R s s' → R (s.setRun r) (s'.setRun r)
  raise {s s'} (r : Fault) : R s s' → R (s.raise r) (s'.raise r)

/-- Both outcomes are next states, and these are related. -/
def NextRelated (R : State → State → Prop) (o o' : Host.Outcome State Fault Refusal) : Prop :=
  ∃ t t', o = .next t ∧ o' = .next t' ∧ R t t'

section Related
variable {R : State → State → Prop} {s s' : State}

theorem NextRelated.of_related (h : R s s') : NextRelated R (.next s) (.next s') := ⟨s, s', rfl, rfl, h⟩

theorem KeptByUpdates.value (hR : KeptByUpdates R) (h : R s s') (a : Operand) : s'.value a = s.value a := by
  cases a with
  | lit n => rfl
  | reg r => simp only [State.value, State.readReg, hR.regs h]

theorem KeptByUpdates.readCell (hR : KeptByUpdates R) (h : R s s') (c : Nat) : s'.readCell c = s.readCell c := by
  simp only [State.readCell, hR.mem h]

theorem KeptByUpdates.memRead (hR : KeptByUpdates R) (h : R s s') (addr : Word) : s'.memRead addr = s.memRead addr := by
  simp only [State.memRead, hR.readCell h]

theorem KeptByUpdates.nextPc (hR : KeptByUpdates R) (h : R s s') (n : Nat) : s'.nextPc n = s.nextPc n := by
  simp only [State.nextPc, hR.pc h]

theorem KeptByUpdates.stackFull (hR : KeptByUpdates R) (h : R s s') : s'.stackFull = s.stackFull := by
  simp only [State.stackFull, hR.config h, hR.stack h]

theorem KeptByUpdates.advance (hR : KeptByUpdates R) (h : R s s') (n : Nat) : R (s.advance n) (s'.advance n) := by
  rw [State.advance, State.advance, hR.nextPc h]
  exact hR.setPc _ h

theorem KeptByUpdates.takeFault (hR : KeptByUpdates R) (h : R s s') (r : Fault) :
    NextRelated R (takeFault r s) (takeFault r s') :=
  .of_related (hR.raise r h)

theorem KeptByUpdates.writeResult (hR : KeptByUpdates R) (h : R s s') (a : Operand) (v : Word) (n : Nat) :
    NextRelated R (writeResult a v n s) (writeResult a v n s') := by
  cases a with
  | reg r => exact .of_related (hR.advance (hR.writeReg r v h) n)
  | lit c => exact .of_related (hR.advance (hR.writeCell c.toNat v h) n)

/-- A push (and below, a pop) fails in both states or in neither. -/
theorem KeptByUpdates.push (hR : KeptByUpdates R) (h : R s s') (v : Word) :
    (∃ r, s.push v = .error r ∧ s'.push v = .error r) ∨
    (∃ t t', s.push v = .ok t ∧ s'.push v = .ok t' ∧ R t t') := by
  rcases s.push_cases v with ⟨hfull, hpush⟩ | ⟨hroom, hpush⟩
  · exact .inl ⟨_, hpush, s'.push_full v ((hR.stackFull h).trans hfull)⟩
  · refine .inr ⟨_, _, hpush, s'.push_ok v ((hR.stackFull h).trans hroom), ?_⟩
    rw [hR.stack h]
    exact hR.setStack _ h

theorem KeptByUpdates.pop (hR : KeptByUpdates R) (h : R s s') :
    (∃ r, s.pop = .error r ∧ s'.pop = .error r) ∨
    (∃ v t t', s.pop = .ok (v, t) ∧ s'.pop = .ok (v, t') ∧ R t t') := by
  rcases s.pop_cases with ⟨hempty, hpop⟩ | ⟨st, v, hstack, hpop⟩
  · exact .inl ⟨_, hpop, s'.pop_nil ((hR.stack h).trans hempty)⟩
  · exact .inr ⟨v, _, _, hpop, s'.pop_concat st v ((hR.stack h).trans hstack), hR.setStack st h⟩

/-- A handler reads only what the relation fixes and writes only by the updates that keep it. -/
theorem exec_related (hR : KeptByUpdates R) (h : R s s') (i : Instr) : NextRelated R (exec i s) (exec i s') := by
  have hvalue := hR.value h
  cases i with
  | halt => exact .of_related (hR.advance (hR.setRun .halted h) 0)
  | nop => exact .of_related (hR.advance h 0)
  | set a _ | eq a _ _ | gt a _ _ | add a _ _ | mult a _ _ | and a _ _ | or a _ _ | not a _ =>
    simp only [exec, execSet, execEq, execGt, execAdd, execMult, execAnd, execOr, execNot, hvalue]
    exact hR.writeResult h a _ _
  | jmp a =>
    simp only [exec, execJmp, hvalue]
    exact .of_related (hR.setPc _ h)
  | jt a b =>
    simp only [exec, execJt, hvalue]
    split
    · exact .of_related (hR.advance h 2)
    · exact .of_related (hR.setPc _ h)
  | jf a b =>
    simp only [exec, execJf, hvalue]
    split
    · exact .of_related (hR.setPc _ h)
    · exact .of_related (hR.advance h 2)
  | out a =>
    simp only [exec, execOut, hvalue]
    exact .of_related (hR.advance (hR.outValue _ h) 1)
  | mod a b c =>
    simp only [exec, execMod, hvalue]
    split
    · exact hR.takeFault h _
    · exact hR.writeResult h a _ 3
  | push a =>
    simp only [exec, execPush, hvalue]
    rcases hR.push h (s.value a) with ⟨r, hpush, hpush'⟩ | ⟨t, t', hpush, hpush', ht⟩ <;> rw [hpush, hpush']
    · exact hR.takeFault h r
    · exact .of_related (hR.advance ht 1)
  | call a =>
    simp only [exec, execCall, hvalue, hR.nextPc h]
    rcases hR.push h (s.nextPc 1) with ⟨r, hpush, hpush'⟩ | ⟨t, t', hpush, hpush', ht⟩ <;> rw [hpush, hpush']
    · exact hR.takeFault h r
    · exact .of_related (hR.setPc _ ht)
  | pop a =>
    simp only [exec, execPop]
    rcases hR.pop h with ⟨r, hpop, hpop'⟩ | ⟨v, t, t', hpop, hpop', ht⟩ <;> rw [hpop, hpop']
    · exact hR.takeFault h r
    · exact hR.writeResult ht a v 1
  | ret =>
    simp only [exec, execRet]
    rcases hR.pop h with ⟨r, hpop, hpop'⟩ | ⟨v, t, t', hpop, hpop', ht⟩ <;> rw [hpop, hpop']
    · exact hR.takeFault h r
    · exact .of_related (hR.setPc v ht)
  | rmem a b =>
    simp only [exec, execRmem, hvalue, hR.memRead h]
    split
    · exact hR.takeFault h _
    · exact hR.writeResult h a _ 2
  | wmem a b =>
    by_cases haddr : (s.value a).toNat < 32768 <;>
      simp only [exec, execWmem, State.memWrite, hvalue, haddr, if_true, if_false]
    · exact .of_related (hR.advance (hR.writeCell _ _ h) 2)
    · exact hR.takeFault h _
  | in_ a =>
    simp only [exec, execIn, hR.inp h]
    split
    · exact .of_related h
    · exact hR.writeResult (hR.setInp _ h) a _ 1

end Related

/-! ### PSIZE -/

/-- `s'` is `s` with PSIZE replaced by `p`. -/
def DiffersInPsize (p : Fin 32769) (s s' : State) : Prop := s' = { s with psize := p }

/-- No update touches PSIZE, so replacing it before or after an update is the same record. -/
theorem keptByUpdates_differsInPsize (p : Fin 32769) : KeptByUpdates (DiffersInPsize p) := by
  constructor <;> intros <;> subst_vars <;> rfl

/-- Settles O51: the fields by `controlFields_of_step`, and by `exec_related` a handler keeps the difference in PSIZE. -/
theorem instructionsNeitherWriteNorReadPsize : Obligations.InstructionsNeitherWriteNorReadPsize := by
  unfold Obligations.InstructionsNeitherWriteNorReadPsize
  refine ⟨fun s t => controlFields_of_step, fun i s p => ?_⟩
  obtain ⟨t, t', ht, ht', rfl⟩ := exec_related (keptByUpdates_differsInPsize p) (s := s) rfl i
  rw [ht, ht']
  rfl

/-! ### OUT and TRACE -/

/-- The two states differ at most in OUT and TRACE. -/
def AgreeButRecords (s s' : State) : Prop := s.forgetRecords = s'.forgetRecords

/-- What does not read OUT or TRACE is the same in both states. -/
theorem AgreeButRecords.read_eq {α : Type} {s s' : State} (h : AgreeButRecords s s') (f : State → α)
    (hf : ∀ u : State, f u.forgetRecords = f u) : f s' = f s := by
  rw [← hf s', ← hf s, h]

/-- An update but `outValue` commutes with forgetting OUT and TRACE, and `outValue` is forgotten. -/
theorem keptByUpdates_agreeButRecords : KeptByUpdates AgreeButRecords where
  regs h := h.read_eq State.regs fun _ => rfl
  pc h := h.read_eq State.pc fun _ => rfl
  mem h := h.read_eq State.mem fun _ => rfl
  stack h := h.read_eq State.stack fun _ => rfl
  inp h := h.read_eq State.inp fun _ => rfl
  config h := h.read_eq State.config fun _ => rfl
  writeReg r v h := congrArg (State.writeReg · r v) h
  writeCell c v h := congrArg (State.writeCell · c v) h
  setPc p h := congrArg (State.setPc · p) h
  setStack st h := congrArg (State.setStack · st) h
  outValue _ h := h
  setInp bs h := congrArg (State.setInp · bs) h
  setRun r h := congrArg (State.setRun · r) h
  raise r h := congrArg (State.raise · r) h

theorem State.wordsFrom_forgetRecords (s : State) (a n : Nat) : s.forgetRecords.wordsFrom a n = s.wordsFrom a n := by
  induction n generalizing a with
  | zero => rfl
  | succ n ih =>
    simp only [State.wordsFrom, ih]
    rfl

theorem State.fetch_forgetRecords (s : State) : s.forgetRecords.fetch = s.fetch := by
  simp only [State.fetch, s.wordsFrom_forgetRecords]
  rfl

/-- States that differ only in OUT and TRACE step to states that differ only there, or are both refused. -/
theorem mapNext_forgetRecords_step {s s' : State} (h : AgreeButRecords s s') :
    mapNext State.forgetRecords (step s) = mapNext State.forgetRecords (step s') := by
  have hrun' : s'.run = s.run := h.read_eq State.run fun _ => rfl
  have hnext : ∀ {t t' : State}, AgreeButRecords t t' →
      mapNext State.forgetRecords (.next t) = mapNext State.forgetRecords (.next t') := congrArg Host.Outcome.next
  cases hrun : s.run with
  | idle | halted | exhausted | faulted =>
    simp only [step, hrun', hrun]
    exact hnext h
  | released => simp only [step, hrun', hrun]
  | running =>
    simp only [step, cycle, hrun', hrun, h.read_eq State.psize fun _ => rfl, h.read_eq State.pc fun _ => rfl,
      h.read_eq State.fetch State.fetch_forgetRecords]
    split
    · exact hnext (keptByUpdates_agreeButRecords.setRun .exhausted h)
    · split
      next r _ => exact hnext (keptByUpdates_agreeButRecords.raise r h)
      next i _ =>
        obtain ⟨t, t', ht, ht', hagree⟩ := exec_related keptByUpdates_agreeButRecords h i
        rw [ht, ht']
        exact hnext hagree

/-- Settles O52: replacing OUT and TRACE is forgotten, so the two states agree but for the records. -/
theorem stepsDoNotReadOutOrTrace : Obligations.StepsDoNotReadOutOrTrace := by
  unfold Obligations.StepsDoNotReadOutOrTrace
  intro s o q
  exact mapNext_forgetRecords_step rfl

end Sys2Proof.Machine
end

section
/-! The host's operations (70_reset_and_hazards.md R210 to R218): the reset table, load, execute and free. What an
answered move can be is `load_cases` and `hostMove_cases`; what an operation answers, given its conditions, is its
definition with the conditions put in. -/

namespace Sys2Proof.Machine
open Sys2Proof

/-! ### Reset (R37) -/

/-- Beyond the image every cell is 0 (R27, R212). -/
theorem Memory.readWord_ofBytes_beyond {bs : List Byte} {i : Nat} (h : bs.length ≤ 2 * i) :
    (Memory.ofBytes 0 bs).readWord i = 0 := by
  apply BitVec.eq_of_toNat_eq
  rw [Memory.readWord_ofBytes, List.getD_eq_default bs 0 h, List.getD_eq_default bs 0 (by omega)]
  rfl

/-- Settles O53: the fields of `State.resetWith`, a register file of zeros, and the memory of an
empty image. -/
theorem resetValues : Obligations.ResetValues := by
  unfold Obligations.ResetValues
  intro c
  have hregs : ∀ r, (State.resetWith c).readReg r = 0 := ((resetMeetsTheInvariant c).launch rfl).1
  have hcells : ∀ a, (State.resetWith c).readCell a = 0 := fun _ =>
    Memory.readWord_ofBytes_beyond (bs := []) (Nat.zero_le _)
  exact ⟨hregs, rfl, rfl, hcells, rfl, rfl, rfl, rfl, rfl, rfl, rfl⟩

/-! ### Load (R211 to R213) -/

theorem load_of_loaded {bytes : List Byte} {s : State} (hloaded : s.loaded = true) (hrun : s.run ≠ .released) :
    load bytes s = .next (.error .alreadyLoaded, s.rejectLoad .alreadyLoaded) := by
  simp [load, hloaded, hrun]

section Unloaded
variable {bytes : List Byte} {s : State} (hloaded : s.loaded = false) (hidle : s.run = .idle)
include hloaded hidle

theorem load_of_odd (hodd : bytes.length % 2 = 1) : load bytes s = .refused .oddLength := by
  simp [load, hloaded, hidle, hodd]

theorem load_of_oversize (heven : bytes.length % 2 = 0) (hlen : 65536 < bytes.length) :
    load bytes s = .next (.error .sizeExceeded, s.rejectLoad .sizeExceeded) := by
  simp [load, hloaded, hidle, heven, hlen]

theorem load_of_fits (heven : bytes.length % 2 = 0) (hlen : bytes.length ≤ 65536) :
    load bytes s = .next (.success, s.loadImage bytes) := by
  simp [load, hloaded, hidle, heven, Nat.not_lt.2 hlen]

end Unloaded

/-- Settles O55: the two rejections. -/
theorem rejectedLoadWritesOnlyTrace : Obligations.RejectedLoadWritesOnlyTrace := by
  unfold Obligations.RejectedLoadWritesOnlyTrace
  intro bytes s
  exact ⟨load_of_loaded, load_of_oversize⟩

/-- A successful load found LOADED false, and sets LOADED. -/
theorem loaded_of_load_success {bytes : List Byte} {s t : State} (h : load bytes s = .next (.success, t)) :
    s.loaded = false ∧ t.loaded = true := by
  rcases load_cases h with ⟨-, -, hres, -⟩ | ⟨-, -, hres, -⟩ | ⟨-, hloaded, -, -, -, rfl⟩
  · cases hres
  · cases hres
  · exact ⟨hloaded, rfl⟩

/-- A move that changes LOADED is a successful load (R30). -/
theorem load_success_of_loaded_changed {m : Option HostMove} {s t : State} (h : act m s = .next t)
    (hne : t.loaded ≠ s.loaded) : ∃ bytes, m = some (.load bytes) ∧ load bytes s = .next (.success, t) := by
  cases m with
  | none =>
    obtain ⟨-, hloaded, -, -⟩ := controlFields_of_step h
    exact absurd hloaded hne
  | some m =>
    rcases hostMove_cases h with ⟨b, e, -, -, -, rfl⟩ | ⟨b, rfl, -, -, -, -, hload, -⟩ | ⟨-, -, -, rfl⟩ |
      ⟨b, -, -, rfl⟩ | ⟨-, -, rfl⟩
    · exact absurd rfl hne
    · exact ⟨b, rfl, hload⟩
    · exact absurd rfl hne
    · exact absurd rfl hne
    · exact absurd rfl hne

/-- Settles O54: LOADED is false at reset, and only a successful load changes it; a load after it is
rejected. -/
theorem loadedIsSetOnceByLoad : Obligations.LoadedIsSetOnceByLoad := by
  unfold Obligations.LoadedIsSetOnceByLoad
  exact ⟨fun _ => rfl, fun _ _ _ => loaded_of_load_success, fun _ _ _ => load_success_of_loaded_changed,
    fun _ _ hloaded hrun => ⟨_, load_of_loaded hloaded hrun⟩⟩

/-- Settles O56: the image's words are read back by `Memory.readWord_ofBytes`, and PSIZE is small enough for its
type. -/
theorem loadCopiesTheImage : Obligations.LoadCopiesTheImage := by
  unfold Obligations.LoadCopiesTheImage
  intro bytes s hloaded hidle heven hlen
  have hpsize : (s.loadImage bytes).psize.val = bytes.length / 2 := Nat.mod_eq_of_lt (by omega)
  exact ⟨s.loadImage bytes, load_of_fits hloaded hidle heven hlen, hpsize, rfl,
    fun i _ => Memory.readWord_ofBytes bytes i, fun i hi => Memory.readWord_ofBytes_beyond (by omega), rfl⟩

/-! ### Execute, free, and moves out of order (R214 to R218) -/

/-- Settles O57: the run starts, and in IDLE the invariant gives the launch state and no fault reason. -/
theorem executeStartsTheRun : Obligations.ExecuteStartsTheRun := by
  unfold Obligations.ExecuteStartsTheRun
  intro s hidle hloaded
  have hstart : execute s = .next (s.setRun .running) := by simp [execute, hidle, hloaded]
  refine ⟨hstart, fun hs => ?_⟩
  obtain ⟨hregs, hpc, hstack, hout⟩ := hs.launch hidle
  exact ⟨hregs, hpc, hstack, hout, hs.fault_eq_none (by simp [hidle]) (by simp [hidle])⟩

/-- Once the run has begun, and before free, execute and load are refused (R215, R218). -/
theorem execute_and_load_refused {s : State} (hidle : s.run ≠ .idle) (hreleased : s.run ≠ .released) :
    execute s = .refused .executeTwice ∧ ∀ bytes, hostMove (.load bytes) s = .refused .loadOutOfOrder := by
  cases hrun : s.run with
  | idle => exact absurd hrun hidle
  | released => exact absurd hrun hreleased
  | running | halted | exhausted | faulted => simp [execute, hostMove, hostLoad, hrun]

/-- Settles O58: each refusal by the run state and LOADED. -/
theorem outOfOrderHostMovesAreRefused : Obligations.OutOfOrderHostMovesAreRefused := by
  unfold Obligations.OutOfOrderHostMovesAreRefused
  intro s
  refine ⟨fun bytes hidle hloaded hodd => load_of_odd hloaded hidle hodd, fun hidle hloaded => ?_,
    fun hidle hreleased => (execute_and_load_refused hidle hreleased).1,
    fun hidle hreleased => (execute_and_load_refused hidle hreleased).2, ?_, act_of_released⟩
  · simp [execute, hidle, hloaded]
  · rintro (hrun | hrun) <;> simp [free, hrun]

/-- Settles O59: each of the three ends is released. -/
theorem freeReleasesAnEndedRun : Obligations.FreeReleasesAnEndedRun := by
  unfold Obligations.FreeReleasesAnEndedRun
  rintro s ((hrun | hrun) | hrun) <;> simp only [free, hrun] <;> rfl

/-- Settles O60: of the answered moves only the supply of a byte is one during a run. -/
theorem hostCannotDisturbARun : Obligations.HostCannotDisturbARun := by
  unfold Obligations.HostCannotDisturbARun
  intro m s t hrun h
  rcases hostMove_cases h with ⟨b, e, -, hidle, -⟩ | ⟨b, -, hidle, -⟩ | ⟨-, hidle, -⟩ | ⟨b, -, -, rfl⟩ |
    ⟨-, hended, -⟩
  · cases hidle.symm.trans hrun
  · cases hidle.symm.trans hrun
  · cases hidle.symm.trans hrun
  · exact ⟨s.inp.prefix_append [b], rfl⟩
  · simp [hrun] at hended

end Sys2Proof.Machine
end
